-- ==== Sys2Proof/Word.lean ====
section
/-! DEFINITION. The words of the Colorizer CORE and its two colour types (00_scope.md R6, 10_state.md R11, R12). -/

namespace Sys2Proof

/-- A byte: a colour channel, an HSV field, a memory byte or an alpha value (CHAN_BITS = 8, 00_scope.md R5). -/
abbrev Byte := BitVec 8

/-- A packed colour, the width of RGB, HSV and TINT (TINT_BITS = 24, 00_scope.md R5). -/
abbrev Packed := BitVec 24

/-- A dimension or a row index (DIM_BITS = 16, 00_scope.md R5; log entry 14). -/
abbrev Dim := BitVec 16

/-- A command word, and the response register (CMD_BITS = 32, 00_scope.md R5; 10_state.md R19). -/
abbrev Word := BitVec 32

/-- An RgbColor: three independent 8-bit channels (10_state.md R11). -/
structure Rgb where
  r : Byte
  g : Byte
  b : Byte
  deriving DecidableEq, Repr

/-- An HsvColor: three 8-bit fields (10_state.md R12). -/
structure Hsv where
  h : Byte
  s : Byte
  v : Byte
  deriving DecidableEq, Repr

/-- The four bytes of a transformed pixel, in the order of their addresses (20_memory.md R32, output layout). -/
structure OutPixel where
  alpha : Byte
  red : Byte
  green : Byte
  blue : Byte
  deriving DecidableEq, Repr

end Sys2Proof
end

