-- ==== Sys2Proof/Syntax.lean ====
section
/-! DEFINITION. The commands of the Colorizer CORE, one constructor per row of spec/opcode_table.json (30_encoding.md R53). -/

namespace Sys2Proof

/-- The registers that have a number (30_encoding.md R54). RSP has none (10_state.md R19). -/
inductive Reg where
  | rgb | hsv | tint | width | height | row | alpha | status
  deriving DecidableEq, Repr

/-- A command (30_encoding.md R53, R58). -/
inductive Instr where
  /-- WR reg, imm: write a register (44_regaccess.md R98). -/
  | wr (reg : Reg) (imm : Packed)
  /-- RD reg: read a register into RSP (44_regaccess.md R99). -/
  | rd (reg : Reg)
  /-- RGB2HSV: HSV becomes the conversion of RGB (40_colorspace.md R70). -/
  | rgb2hsv
  /-- HSV2RGB: RGB becomes the conversion of HSV (40_colorspace.md R71). -/
  | hsv2rgb
  /-- LUTBUILD: build the table from TINT (41_lutbuild.md R79). -/
  | lutbuild
  /-- ALPHA: the alpha of ROW in an image of HEIGHT rows (42_alpha.md R85). -/
  | alpha
  /-- XFORM: transform the pixel buffer in place (43_xform.md R92). -/
  | xform
  deriving DecidableEq, Repr

end Sys2Proof
end

