-- ==== Sys2Proof/WellFormed.lean ====
section
/-! DEFINITION. Which commands have a word: the conditions of 30_encoding.md R55 and R56 on WR. -/

namespace Sys2Proof

/-- The registers a WR may name: numbers 0 to 5 (30_encoding.md R54). -/
def Reg.writable : Reg → Bool
  | .rgb | .hsv | .tint | .width | .height | .row => true
  | .alpha | .status => false

/-- The DIM_BITS-bit registers (30_encoding.md R52). -/
def Reg.isDim : Reg → Bool
  | .width | .height | .row => true
  | .rgb | .hsv | .tint | .alpha | .status => false

/-- A command that some word decodes to: a WR names a writable register, and its IMM fits a dimension register
(30_encoding.md R55, R56). -/
def Instr.wellFormed : Instr → Bool
  | .wr reg imm => reg.writable && (!reg.isDim || decide (imm.toNat < 65536))
  | .rd _ => true
  | .rgb2hsv => true
  | .hsv2rgb => true
  | .lutbuild => true
  | .alpha => true
  | .xform => true

end Sys2Proof
end

