-- ==== Sys2Proof/Decode.lean ====
section
/-! DEFINITION. Decoding of the one format C (30_encoding.md R50 to R58), total and rejecting by name, and the encoder. -/

namespace Sys2Proof

/-- Why a word is illegal: the cases of 30_encoding.md R56. Each makes the core raise ILLEGAL (60_exceptions.md R104). -/
inductive DecodeError where
  /-- R56 (a): OP is 0 or 8 to 15. -/
  | reservedOpcode
  /-- R56 (b): a WR to ALPHA or STATUS. -/
  | readOnlyRegister
  /-- R56 (b) and (c): REG is 8 to 15. -/
  | reservedRegister
  /-- R56 (d) with R55: a WR to a dimension register with a value that needs more than DIM_BITS bits. -/
  | dimensionTooWide
  /-- R56 (d) with R55: a must-be-zero field is not zero. -/
  | mustBeZero
  deriving DecidableEq, Repr

/-- OP = cmd[31:28] (30_encoding.md R51). -/
def opField (w : Word) : BitVec 4 := w.extractLsb' 28 4

/-- REG = cmd[27:24] (30_encoding.md R51). -/
def regField (w : Word) : BitVec 4 := w.extractLsb' 24 4

/-- IMM = cmd[23:0] (30_encoding.md R51). -/
def immField (w : Word) : Packed := w.extractLsb' 0 24

/-- The number of a register (30_encoding.md R54). -/
def regNumber : Reg → BitVec 4
  | .rgb => 0
  | .hsv => 1
  | .tint => 2
  | .width => 3
  | .height => 4
  | .row => 5
  | .alpha => 6
  | .status => 7

/-- The register of a number; 8 to 15 are reserved (30_encoding.md R54). -/
def regOfNumber (n : BitVec 4) : Option Reg :=
  match n.toNat with
  | 0 => some .rgb
  | 1 => some .hsv
  | 2 => some .tint
  | 3 => some .width
  | 4 => some .height
  | 5 => some .row
  | 6 => some .alpha
  | 7 => some .status
  | _ => none

/-- The OP = 1 branch of Decode (30_encoding.md R58). -/
def decodeWr (reg : BitVec 4) (imm : Packed) : Except DecodeError Instr :=
  match regOfNumber reg with
  | none => .error .reservedRegister
  | some r =>
    if r.writable = false then .error .readOnlyRegister
    else if r.isDim = true ∧ ¬ imm.toNat < 65536 then .error .dimensionTooWide
    else .ok (.wr r imm)

/-- The OP = 2 branch of Decode (30_encoding.md R58). -/
def decodeRd (reg : BitVec 4) (imm : Packed) : Except DecodeError Instr :=
  match regOfNumber reg with
  | none => .error .reservedRegister
  | some r => if imm = 0 then .ok (.rd r) else .error .mustBeZero

/-- A command that uses neither REG nor IMM: both must be zero (30_encoding.md R55). -/
def decodePlain (i : Instr) (reg : BitVec 4) (imm : Packed) : Except DecodeError Instr :=
  if reg = 0 ∧ imm = 0 then .ok i else .error .mustBeZero

/-- Decode(cmd) (30_encoding.md R58). -/
def decode (w : Word) : Except DecodeError Instr :=
  match (opField w).toNat with
  | 1 => decodeWr (regField w) (immField w)
  | 2 => decodeRd (regField w) (immField w)
  | 3 => decodePlain .rgb2hsv (regField w) (immField w)
  | 4 => decodePlain .hsv2rgb (regField w) (immField w)
  | 5 => decodePlain .lutbuild (regField w) (immField w)
  | 6 => decodePlain .alpha (regField w) (immField w)
  | 7 => decodePlain .xform (regField w) (immField w)
  | _ => .error .reservedOpcode

/-- Format C assembled from its three fields (30_encoding.md R51). -/
def formatC (op reg : BitVec 4) (imm : Packed) : Word := (op ++ reg) ++ imm

/-- The word of a well-formed command (30_encoding.md R53, R60). -/
def encode : Instr → Word
  | .wr reg imm => formatC 1 (regNumber reg) imm
  | .rd reg => formatC 2 (regNumber reg) 0
  | .rgb2hsv => formatC 3 0 0
  | .hsv2rgb => formatC 4 0 0
  | .lutbuild => formatC 5 0 0
  | .alpha => formatC 6 0 0
  | .xform => formatC 7 0 0

/-- The command word whose low `nbits` bits are those of `w`, every bit above them zero. Every row of the opcode table has
32 bits, and a command is one word (30_encoding.md R50). -/
def tableWord (nbits w : Nat) : Word := BitVec.ofNat 32 (w % 2 ^ nbits)

/-- What the decoder reads from a word numbered as spec/opcode_table.json numbers it: bit 0 is the least significant. -/
def decodeTableWord (nbits w : Nat) : Option Instr :=
  match decode (tableWord nbits w) with
  | .ok i => some i
  | .error _ => none

end Sys2Proof
end

