-- ==== Sys2Proof/Config.lean ====
section
/-! DEFINITION. What the machine's implementation fixes: the sizes of 00_scope.md R5 and the free values of 93 U1 and U2.
The parameters with a default that a test could show wrong (93 U10) stand in Machine/Params.lean. -/

namespace Sys2Proof.Config

/-- LUT_SLOTS, the number of table slots (00_scope.md R5). -/
def lutSlots : Nat := 1024

/-- LUT_STRIDE, the bytes of a slot (00_scope.md R5). -/
def lutStride : Nat := 4

/-- LUT_BYTES, the size of the LUT space (00_scope.md R5, 20_memory.md R33, 90_conflicts.md C1). -/
def lutBytes : Nat := lutSlots * lutStride

/-- PIX_STRIDE, the bytes of a pixel (00_scope.md R5). -/
def pixStride : Nat := 4

/-- The largest PIX_BYTES that is a configuration of this hardware, 2^(2 * DIM_BITS + 2) (00_scope.md R5, 93 U8). -/
def maxPixBytes : Nat := 2 ^ 34

/-- A FREE VALUE: the content of a PIX byte that neither the host nor XFORM has written, an arbitrary total function of
the address (20_memory.md R38, 93 U2; log entry 4). -/
opaque pixInitial : Nat → Byte

/-- A FREE VALUE: what the given draw of the unwritten LUT byte at the given address returns (20_memory.md R39, 93 U1;
log entry 5). -/
opaque lutUnwritten (draw address : Nat) : Byte

end Sys2Proof.Config
end

