-- ==== Sys2Proof/Machine/State.lean ====
section
/-! DEFINITION. The state of the Colorizer CORE (10_state.md R10), what stands beside it (R27), the moves of its host, the
faults, and State.reset. -/

namespace Sys2Proof.Machine

/-- A memory: the written bytes, as cells in strictly rising order of address. An unlisted address is unwritten
(10_state.md R24, 20_memory.md R38); no cell can equal that, so the canonical form is the order alone. -/
abbrev Memory := List Host.Cell

/-- One move of the host, made between commands (20_memory.md R41, 30_encoding.md R50, R61; 70_reset_and_hazards.md R116).
The host has no move that writes LUT (20_memory.md R39) and none during a command (R41). -/
inductive HostMove where
  /-- Issue a command word. -/
  | command (w : Word)
  /-- The reset event. -/
  | reset
  /-- `PIX[a] = v`: write one byte of pixel memory. -/
  | pixWrite (a : Nat) (v : Byte)
  /-- `PIX[a]`: read one byte of pixel memory. -/
  | pixRead (a : Nat)
  /-- `LUT[a]`: read one byte of the table. -/
  | lutRead (a : Nat)
  deriving DecidableEq, Repr

/-- The architectural state of the core: exactly the eleven pieces of 10_state.md R10 and nothing else. -/
structure CoreState where
  /-- RGB (10_state.md R11). -/
  rgb : Packed
  /-- HSV (10_state.md R12). -/
  hsv : Packed
  /-- TINT (10_state.md R13). -/
  tint : Packed
  /-- WIDTH (10_state.md R14). -/
  width : Dim
  /-- HEIGHT (10_state.md R15). -/
  height : Dim
  /-- ROW (10_state.md R16). -/
  row : Dim
  /-- ALPHA (10_state.md R17). -/
  alpha : Byte
  /-- STATUS (10_state.md R18); its fields are read and written by Machine/Flags.lean only. -/
  status : Byte
  /-- RSP (10_state.md R19). -/
  rsp : Word
  /-- The LUT memory (10_state.md R24). -/
  lut : Memory
  /-- The PIX memory (10_state.md R25). -/
  pix : Memory
  deriving DecidableEq, Repr

/-- What stands beside the core in one run and is no state of it: the two arguments of a run that 10_state.md R27 names, and
what the model's host keeps. A step takes one value (Host.Core), so they travel beside the core's state in it; no command
writes any of them, and in a state that a run reaches none reads any but PIX_BYTES, which XFORM reads (log entries 1, 2, 5,
6 and 8). -/
structure Surroundings where
  /-- The parameter PIX_BYTES, which no step changes (00_scope.md R5, 10_state.md R27; log entry 1). -/
  pixBytes : Nat
  /-- What is left of the sequence of moves the host makes in this run, oldest first (10_state.md R27; log entry 2). -/
  inbox : List HostMove
  /-- The byte the host's last memory read returned (log entry 8). -/
  hostData : Byte
  /-- How many draws of unwritten LUT bytes have been made (log entry 5). -/
  draws : Nat
  deriving DecidableEq, Repr

/-- What a step takes and answers: the core's state and its surroundings. -/
structure State extends CoreState, Surroundings where
  deriving DecidableEq, Repr

/-- What stops the machine. Only a HOST access to a byte that does not exist does; no command of the core can. -/
inductive Fault where
  /-- Raised by a host read or write of PIX at an address at or above PIX_BYTES (20_memory.md R37). Safe: the model stops
  where the spec gives no byte. -/
  | pixAbsent (a : Nat)
  /-- Raised by a host read of LUT at an address at or above 4096 (20_memory.md R33). Safe: the model stops where the spec
  gives no byte. -/
  | lutAbsent (a : Nat)
  deriving DecidableEq, Repr

/-- Why an instruction has no meaning in the model. -/
inductive Refusal where
  /-- Raised by an arm of exec whose instruction has no meaning yet; no arm does so now. Safe: the model stops. -/
  | notModelled (mnemonic : String)
  deriving DecidableEq, Repr

/-- The core's state after reset (10_state.md R26): every register zero, STATUS zero, every LUT byte unwritten. PIX, which
reset does not touch, has no byte written yet (log entry 23). -/
def CoreState.reset : CoreState where
  rgb := 0
  hsv := 0
  tint := 0
  width := 0
  height := 0
  row := 0
  alpha := 0
  status := 0
  rsp := 0
  lut := []
  pix := []

/-- The start of the run whose arguments are PIX_BYTES and the host's moves (00_scope.md R5, 10_state.md R26, R27): the core
after reset, no byte read by the host yet, no draw made. -/
def State.resetWith (pixBytes : Nat) (moves : List HostMove) : State where
  toCoreState := CoreState.reset
  pixBytes := pixBytes
  inbox := moves
  hostData := 0
  draws := 0

/-- The state right after reset, at the arguments that log entries 1 and 2 name: every byte that can exist does, and the host
makes no move. -/
def State.reset : State := State.resetWith Config.maxPixBytes []

end Sys2Proof.Machine
end

