-- ==== Sys2Proof/Machine/Flags.lean ====
section
/-! DEFINITION. The fields of STATUS (10_state.md R18, R21, R22) and the error codes (60_exceptions.md R103). -/

namespace Sys2Proof.Machine

/-- The errors a command can raise (60_exceptions.md R103). -/
inductive ErrorCode where
  | illegal | dim | nolut | range | row
  deriving DecidableEq, Repr

/-- The value of STATUS.ERR for each error (60_exceptions.md R103). -/
def ErrorCode.code : ErrorCode → BitVec 4
  | .illegal => 1
  | .dim => 2
  | .nolut => 3
  | .range => 4
  | .row => 5

/-- STATUS as its two fields determine it: ERR in bits 7 to 4, bits 3 to 1 zero, LUTV in bit 0 (10_state.md R18). -/
def statusWord (err : BitVec 4) (lutv : Bool) : Byte := (err ++ 0#3) ++ BitVec.ofBool lutv

/-- STATUS.LUTV, "table valid" (10_state.md R21). -/
def State.lutv (s : State) : Bool := s.status.getLsbD 0

/-- STATUS.ERR, the sticky error code (10_state.md R22). -/
def State.err (s : State) : BitVec 4 := s.status.extractLsb' 4 4

/-- STATUS as software reads it: bits 3 to 1 are hardwired to zero (10_state.md R18, 93 U7; log entry 17). -/
def State.statusRead (s : State) : Byte := statusWord s.err s.lutv

/-- Set ERR, leaving LUTV (60_exceptions.md R111). -/
def State.setErr (s : State) (e : BitVec 4) : State := { s with status := statusWord e s.lutv }

/-- Set LUTV to 1, leaving ERR (41_lutbuild.md R79). -/
def State.setLutv (s : State) : State := { s with status := statusWord s.err true }

end Sys2Proof.Machine
end

