-- ==== Sys2Proof/Machine/Ops.lean ====
section
/-! DEFINITION. The shared operations: memory, the two spaces, raising an error, the error-state test, reset. -/

namespace Sys2Proof.Machine

/-- The canonical form of a memory: addresses strictly rising. -/
abbrev Memory.wf (m : Memory) : Prop := m.Pairwise (fun c d => c.1 < d.1)

/-- The byte an address holds, or none where nothing has written it. -/
def Memory.read : Memory → Nat → Option Byte
  | [], _ => none
  | c :: m, a => if c.1 = a then some c.2 else Memory.read m a

/-- Make an address hold a byte, keeping the canonical form (20_memory.md R38, R39). -/
def Memory.write : Memory → Nat → Byte → Memory
  | [], a, v => [(a, v)]
  | c :: m, a, v =>
    if a < c.1 then (a, v) :: c :: m
    else if a = c.1 then (a, v) :: m
    else c :: Memory.write m a v

/-- Make every address below `n` hold the byte `f` gives it, leaving the others: the combined effect of one write to each
of these addresses, in whatever order (43_xform.md R93). -/
def Memory.fillBelow (m : Memory) (n : Nat) (f : Nat → Byte) : Memory :=
  (List.range n).map (fun a => (a, f a)) ++ m.filter (fun c => decide (n ≤ c.1))

/-- Lay `table` over the memory: the cells of `table`, and of the memory those that `kept` says the table does not cover. -/
def Memory.overlay (m table : Memory) (kept : Nat → Bool) : Memory :=
  (m.filter (fun c => kept c.1)).foldr (fun c t => t.write c.1 c.2) table

/-- MemRead(a, 1): the PIX byte at an address; a byte nothing has written is the free value of its address
(20_memory.md R38, 93 U2; log entry 4). -/
def State.memRead (s : State) (a : Nat) : Byte := (s.pix.read a).getD (Config.pixInitial a)

/-- LutRead(a): the LUT byte at an address (20_memory.md R39). An unwritten byte is the free value of the current draw; the
core itself never reads one in a state that a run reaches (log entries 5 and 6). -/
def State.lutByteAt (s : State) (a : Nat) : Byte := (s.lut.read a).getD (Config.lutUnwritten s.draws a)

/-- `raise Error(code)`: STATUS.ERR takes the code, the command ends, and nothing else changes (60_exceptions.md R111).
This is the whole of taking an exception on this hardware; nothing is saved and control goes nowhere (R102). -/
def raiseError (e : ErrorCode) (s : State) : Host.Outcome State Fault Refusal := .next (s.setErr e.code)

/-- The error-state test of Step (30_encoding.md R59): while ERR is not zero the command has no effect
(60_exceptions.md R112); otherwise it is executed. -/
def unlessError (s : State) (run : Host.Outcome State Fault Refusal) : Host.Outcome State Fault Refusal :=
  if s.err = 0 then run else .next s

/-- What the reset event makes of the core's state (70_reset_and_hazards.md R116, R117; 10_state.md R26): every register,
STATUS and RSP zero, every LUT byte unwritten, PIX unchanged. -/
def CoreState.afterReset (c : CoreState) : CoreState := { CoreState.reset with pix := c.pix }

/-- The reset event, the one way out of the error state (60_exceptions.md R112). The surroundings of the core stay as they are
(log entry 19). -/
def State.resetCore (s : State) : State := { s with toCoreState := s.toCoreState.afterReset }

/-- The host writes a PIX byte (20_memory.md R38, R41); a byte at or above PIX_BYTES does not exist (R37; log entry 7). -/
def hostPixWrite (a : Nat) (v : Byte) (s : State) : Host.Outcome State Fault Refusal :=
  if a < s.pixBytes then .next { s with pix := s.pix.write a v } else .fault (.pixAbsent a)

/-- The host reads a PIX byte (20_memory.md R38, R41); a byte at or above PIX_BYTES does not exist (R37; log entry 7). -/
def hostPixRead (a : Nat) (s : State) : Host.Outcome State Fault Refusal :=
  if a < s.pixBytes then .next { s with hostData := s.memRead a } else .fault (.pixAbsent a)

/-- The host reads a LUT byte (20_memory.md R39, R41). An unwritten byte is a free draw, different on each read
(93 U1; log entry 5); the read changes no state of the core. -/
def hostLutRead (a : Nat) (s : State) : Host.Outcome State Fault Refusal :=
  if a < Config.lutBytes then
    match s.lut.read a with
    | some v => .next { s with hostData := v }
    | none => .next { s with hostData := Config.lutUnwritten s.draws a, draws := s.draws + 1 }
  else .fault (.lutAbsent a)

end Sys2Proof.Machine
end

