-- ==== Sys2Proof/Machine/Operands.lean ====
section
/-! DEFINITION. The operand forms: packed colours, registers by name, and the two address computations (43_xform.md R95). -/

namespace Sys2Proof.Machine

/-- The channels of a packed colour: bits 23 to 16 are R, 15 to 8 are G, 7 to 0 are B (10_state.md R11, R13;
41_lutbuild.md R75). -/
def unpackRgb (c : Packed) : Rgb := ⟨c.extractLsb' 16 8, c.extractLsb' 8 8, c.extractLsb' 0 8⟩

/-- The packing of a colour, R most significant (10_state.md R11). -/
def packRgb (c : Rgb) : Packed := (c.r ++ c.g) ++ c.b

/-- The fields of HSV: bits 23 to 16 are h, 15 to 8 are s, 7 to 0 are v (10_state.md R12). -/
def unpackHsv (c : Packed) : Hsv := ⟨c.extractLsb' 16 8, c.extractLsb' 8 8, c.extractLsb' 0 8⟩

/-- The packing of an HsvColor, h most significant (10_state.md R12). -/
def packHsv (c : Hsv) : Packed := (c.h ++ c.s) ++ c.v

/-- `zext_32(x[reg])`: a register, right-aligned and zero-extended (44_regaccess.md R99). -/
def State.readReg (s : State) : Reg → Word
  | .rgb => s.rgb.setWidth 32
  | .hsv => s.hsv.setWidth 32
  | .tint => s.tint.setWidth 32
  | .width => s.width.setWidth 32
  | .height => s.height.setWidth 32
  | .row => s.row.setWidth 32
  | .alpha => s.alpha.setWidth 32
  | .status => s.statusRead.setWidth 32

/-- `x[reg] <- imm`: a 24-bit register takes IMM, a dimension register its low DIM_BITS bits (44_regaccess.md R98). ALPHA and
STATUS are read only (10_state.md R17, R18): nothing is written. -/
def State.writeReg (s : State) (reg : Reg) (imm : Packed) : State :=
  match reg with
  | .rgb => { s with rgb := imm }
  | .hsv => { s with hsv := imm }
  | .tint => { s with tint := imm }
  | .width => { s with width := imm.setWidth 16 }
  | .height => { s with height := imm.setWidth 16 }
  | .row => { s with row := imm.setWidth 16 }
  | .alpha => s
  | .status => s

/-- PixAddr(x, y) in an image of `width` columns (20_memory.md R31). -/
def pixAddr (width x y : Nat) : Nat := Config.pixStride * (y * width + x)

/-- The LUT address of channel `c` of slot `i` (20_memory.md R33). -/
def lutAddr (i c : Nat) : Nat := Config.lutStride * i + c

end Sys2Proof.Machine
end

