-- ==== Sys2Proof/Machine/Params.lean ====
section
/-! DEFINITION. The parameters of 00_scope.md R5 that the spec decides or takes from the source, each under the name R5 gives
it. They stand under Machine/ so that a repair can mend them (93 U10 calls them parameters with these defaults). -/

namespace Sys2Proof.Machine.Params

/-- SAT_REF, the saturation forced on the tint (00_scope.md R5). -/
def satRef : Byte := 180

/-- VAL_REF, the value forced on the tint (00_scope.md R5). -/
def valRef : Byte := 255

/-- BRIGHT_FLOOR, added to the rescaled slot index (00_scope.md R5). -/
def brightFloor : Nat := 30

/-- HUE_STEP, the width of a hue region (00_scope.md R5). -/
def hueStep : Nat := 43

/-- HUE_G, the hue offset of the green branch (00_scope.md R5). -/
def hueG : Nat := 85

/-- HUE_B, the hue offset of the blue branch (00_scope.md R5). -/
def hueB : Nat := 171

/-- ALPHA_LO, the base of the alpha ramp (00_scope.md R5). -/
def alphaLo : Nat := 127

/-- ALPHA_SPAN, the span of the alpha ramp (00_scope.md R5). -/
def alphaSpan : Nat := 128

/-- LUMA_SHIFT, the right shift of the weighted sum (00_scope.md R5). -/
def lumaShift : Nat := 2

/-- LUMA_WR, the luminance weight of red (92 D10; log entry 10). -/
def lumaWR : Nat := 3

/-- LUMA_WG, the luminance weight of green (92 D10, 90_conflicts.md C2; log entry 10). -/
def lumaWG : Nat := 9

/-- LUMA_WB, the luminance weight of blue (92 D10; log entry 10). -/
def lumaWB : Nat := 1

/-- The two readings of ROUND_HALF that 41_lutbuild.md R76 names. -/
inductive HalfRounding where
  | up | even
  deriving DecidableEq, Repr

/-- ROUND_HALF (92 D11; log entry 11). -/
def roundHalf : HalfRounding := .up

/-- `round(i * 0.25)`: the nearest integer to i/4, a fraction of one half rounded as ROUND_HALF says (41_lutbuild.md R76). -/
def roundQuarter (i : Nat) : Nat :=
  if i % 4 < 2 then i / 4
  else if i % 4 = 3 then i / 4 + 1
  else match roundHalf with
    | .up => i / 4 + 1
    | .even => i / 4 + (i / 4) % 2

/-- HUE_DIV: the product first, then the quotient truncated toward zero (92 D13; log entry 12). -/
def hueTerm (difference d : Int) : Int := Int.tdiv ((hueStep : Int) * difference) d

/-- HSV_Q (40_colorspace.md R68, 92 D12, 93 G1; log entry 9). -/
def hsvQ (v s rem : Nat) : Nat := (v * (255 - ((s * rem) >>> 8))) >>> 8

/-- HSV_T (40_colorspace.md R68, 92 D12, 93 G1; log entry 9). -/
def hsvT (v s rem : Nat) : Nat := (v * (255 - ((s * (255 - rem)) >>> 8))) >>> 8

/-- BAND2_END: the first row of band 3 (92 D14, 90_conflicts.md C5; log entry 13). -/
def band2End (height : Nat) : Nat := (2 * height) / 3

end Sys2Proof.Machine.Params
end

