-- ==== Sys2Proof/Machine/Alpha.lean ====
section
/-! DEFINITION. The alpha-gradient generator and the command ALPHA (42_alpha.md). -/

namespace Sys2Proof.Machine

/-- AlphaAt(row, height), for height at least 3 and row below height (42_alpha.md R83). The commands evaluate it only there
(93 U11). -/
def alphaAt (row height : Nat) : Nat :=
  let t := height / 3
  let b2 := Params.band2End height
  if row < t then Params.alphaLo + (row * Params.alphaSpan) / t
  else if row < b2 then 255
  else 255 - ((row - b2) * Params.alphaSpan) / t

/-- ALPHA: DIM when HEIGHT is below 3, then ROW when ROW is not below HEIGHT; otherwise ALPHA takes AlphaAt
(42_alpha.md R85). -/
def execAlpha (s : State) : Host.Outcome State Fault Refusal :=
  unlessError s <|
    if s.height.toNat < 3 then raiseError .dim s
    else if s.height.toNat ≤ s.row.toNat then raiseError .row s
    else .next { s with alpha := BitVec.ofNat 8 (alphaAt s.row.toNat s.height.toNat) }

end Sys2Proof.Machine
end

