-- ==== Sys2Proof/Machine/ColorSpace.lean ====
section
/-! DEFINITION. The colour space converters and the commands RGB2HSV and HSV2RGB (40_colorspace.md). -/

namespace Sys2Proof.Machine

/-- The wide hue of a colour that is no gray: exact, before the one narrowing (40_colorspace.md R65). A tie for the maximum
takes the earlier branch: r, then g, then b. -/
def wideHue (c : Rgb) (mx d : Nat) : Int :=
  if mx = c.r.toNat then Params.hueTerm ((c.g.toNat : Int) - c.b.toNat) d
  else if mx = c.g.toNat then (Params.hueG : Int) + Params.hueTerm ((c.b.toNat : Int) - c.r.toNat) d
  else (Params.hueB : Int) + Params.hueTerm ((c.r.toNat : Int) - c.g.toNat) d

/-- RgbToHsv(r, g, b) (40_colorspace.md R65). -/
def rgbToHsv (c : Rgb) : Hsv :=
  let mx := max c.r.toNat (max c.g.toNat c.b.toNat)
  let mn := min c.r.toNat (min c.g.toNat c.b.toNat)
  if mx = 0 then ⟨0, 0, 0⟩
  else
    let s := 255 * (mx - mn) / mx
    if s = 0 then ⟨0, 0, BitVec.ofNat 8 mx⟩
    else ⟨BitVec.ofInt 8 (wideHue c mx (mx - mn)), BitVec.ofNat 8 s, BitVec.ofNat 8 mx⟩

/-- HsvToRgb(h, s, v) (40_colorspace.md R67, with q and t of R68). -/
def hsvToRgb (c : Hsv) : Rgb :=
  if c.s = 0 then ⟨c.v, c.v, c.v⟩
  else
    let h := c.h.toNat
    let s := c.s.toNat
    let v := c.v.toNat
    let region := h / Params.hueStep
    let rem := ((h - region * Params.hueStep) * 6) % 256
    let p := BitVec.ofNat 8 ((v * (255 - s)) >>> 8)
    let q := BitVec.ofNat 8 (Params.hsvQ v s rem)
    let t := BitVec.ofNat 8 (Params.hsvT v s rem)
    match region with
    | 0 => ⟨c.v, t, p⟩
    | 1 => ⟨q, c.v, p⟩
    | 2 => ⟨p, c.v, t⟩
    | 3 => ⟨p, q, c.v⟩
    | 4 => ⟨t, p, c.v⟩
    | _ => ⟨c.v, p, q⟩

/-- RGB2HSV: HSV becomes the conversion of RGB (40_colorspace.md R70). -/
def execRgb2hsv (s : State) : Host.Outcome State Fault Refusal :=
  unlessError s (.next { s with hsv := packHsv (rgbToHsv (unpackRgb s.rgb)) })

/-- HSV2RGB: RGB becomes the conversion of HSV (40_colorspace.md R71). -/
def execHsv2rgb (s : State) : Host.Outcome State Fault Refusal :=
  unlessError s (.next { s with rgb := packRgb (hsvToRgb (unpackHsv s.hsv)) })

end Sys2Proof.Machine
end

