-- ==== Sys2Proof/Machine/LutBuild.lean ====
section
/-! DEFINITION. The lookup-table builder and the command LUTBUILD (41_lutbuild.md). -/

namespace Sys2Proof.Machine

/-- CanonicalTint(c): the tint's hue at saturation SAT_REF and value VAL_REF (41_lutbuild.md R77). -/
def canonicalTint (c : Packed) : Rgb :=
  hsvToRgb ⟨(rgbToHsv (unpackRgb c)).h, Params.satRef, Params.valRef⟩

/-- Brightness(i) (41_lutbuild.md R76). -/
def brightness (i : Nat) : Nat := min 255 (Params.roundQuarter i + Params.brightFloor)

/-- A channel of the canonical tint scaled by a slot's brightness (41_lutbuild.md R78). -/
def scaleChannel (br : Nat) (ch : Byte) : Byte := BitVec.ofNat 8 ((br * ch.toNat) >>> 8)

/-- The three cells LutBuild writes for slot `i` (41_lutbuild.md R78). -/
def slotCells (t : Rgb) (i : Nat) : List Host.Cell :=
  [(lutAddr i 0, scaleChannel (brightness i) t.r),
   (lutAddr i 1, scaleChannel (brightness i) t.g),
   (lutAddr i 2, scaleChannel (brightness i) t.b)]

/-- The 3072 cells LutBuild(c) writes, in rising order of address (41_lutbuild.md R78). -/
def tableCells (c : Packed) : Memory := (List.range Config.lutSlots).flatMap (slotCells (canonicalTint c))

/-- An address that LutBuild does not write: a padding byte (20_memory.md R33). -/
def notInTable (a : Nat) : Bool := a % Config.lutStride == 3 || decide (Config.lutBytes ≤ a)

/-- LutBuild(c): every byte of the table takes its value and every padding byte keeps what it held (41_lutbuild.md R78). -/
def lutBuild (c : Packed) (lut : Memory) : Memory := lut.overlay (tableCells c) notInTable

/-- LUTBUILD: the table is built from TINT and LUTV becomes 1 (41_lutbuild.md R79). -/
def execLutbuild (s : State) : Host.Outcome State Fault Refusal :=
  unlessError s (.next { s with lut := lutBuild s.tint s.lut }.setLutv)

end Sys2Proof.Machine
end

