-- ==== Sys2Proof/Machine/RegAccess.lean ====
section
/-! DEFINITION. The register access commands WR and RD (44_regaccess.md). -/

namespace Sys2Proof.Machine

/-- WR reg, imm (44_regaccess.md R98). A WR that no word decodes to, of a read-only register or of a value too wide for a
dimension register, raises ILLEGAL, as decode does (30_encoding.md R56; log entry 15). -/
def execWr (reg : Reg) (imm : Packed) (s : State) : Host.Outcome State Fault Refusal :=
  unlessError s <|
    if (Instr.wr reg imm).wellFormed then .next (s.writeReg reg imm) else raiseError .illegal s

/-- RD reg: RSP takes the register zero-extended; it runs in the error state too (44_regaccess.md R99, 92 D30). -/
def execRd (reg : Reg) (s : State) : Host.Outcome State Fault Refusal := .next { s with rsp := s.readReg reg }

end Sys2Proof.Machine
end

