-- ==== Sys2Proof/Machine/Xform.lean ====
section
/-! DEFINITION. The pixel transform engine and the command XFORM (43_xform.md). -/

namespace Sys2Proof.Machine

/-- Luma(r, g, b): the luminance index (43_xform.md R89). -/
def luma (c : Rgb) : Nat :=
  (Params.lumaWR * c.r.toNat + Params.lumaWG * c.g.toNat + Params.lumaWB * c.b.toNat) >>> Params.lumaShift

/-- PixelOut(r, g, b, a): the alpha, and the table's slot for the colour's luminance index (43_xform.md R91). -/
def pixelOut (s : State) (c : Rgb) (a : Byte) : OutPixel :=
  ⟨a, s.lutByteAt (lutAddr (luma c) 0), s.lutByteAt (lutAddr (luma c) 1), s.lutByteAt (lutAddr (luma c) 2)⟩

/-- The input channels of the pixel whose first byte is at `base`: offsets 1, 2 and 3; offset 0 is not read
(20_memory.md R32). -/
def State.pixelIn (s : State) (base : Nat) : Rgb := ⟨s.memRead (base + 1), s.memRead (base + 2), s.memRead (base + 3)⟩

/-- The byte of a pixel at an offset 0 to 3 (20_memory.md R32, output layout). -/
def outByte (p : OutPixel) (k : Nat) : Byte :=
  match k with
  | 0 => p.alpha
  | 1 => p.red
  | 2 => p.green
  | _ => p.blue

/-- What XFORM writes to the byte at `a` of the buffer: pixel number a / 4 stands in row (a / 4) / W (20_memory.md R31), and
its four bytes are PixelOut of its input with its row's alpha (43_xform.md R92, R93). -/
def xformByte (s : State) (a : Nat) : Byte :=
  let y := a / Config.pixStride / s.width.toNat
  let base := Config.pixStride * (a / Config.pixStride)
  outByte (pixelOut s (s.pixelIn base) (BitVec.ofNat 8 (alphaAt y s.height.toNat))) (a % Config.pixStride)

/-- The number of bytes of the buffer, 4 * W * H (20_memory.md R31). -/
def bufferBytes (s : State) : Nat := Config.pixStride * s.width.toNat * s.height.toNat

/-- XFORM: DIM, NOLUT and RANGE are tested in this order before any access; then every byte of the buffer takes its value
and nothing else changes (43_xform.md R92, R93). -/
def execXform (s : State) : Host.Outcome State Fault Refusal :=
  unlessError s <|
    if s.height.toNat < 3 ∨ s.width.toNat = 0 then raiseError .dim s
    else if s.lutv = false then raiseError .nolut s
    else if s.pixBytes < bufferBytes s then raiseError .range s
    else .next { s with pix := s.pix.fillBelow (bufferBytes s) (xformByte s) }

end Sys2Proof.Machine
end

