-- ==== Sys2Proof/Machine/Dispatch.lean ====
section
/-! DEFINITION. The execution of a decoded command (30_encoding.md R59): one arm per command. -/

namespace Sys2Proof.Machine

/-- Execute a command, the error-state test of Step included. -/
def exec (i : Instr) (s : State) : Host.Outcome State Fault Refusal :=
  match i with
  | .wr reg imm => Sys2Proof.Machine.execWr reg imm s
  | .rd reg => Sys2Proof.Machine.execRd reg s
  | .rgb2hsv => Sys2Proof.Machine.execRgb2hsv s
  | .hsv2rgb => Sys2Proof.Machine.execHsv2rgb s
  | .lutbuild => Sys2Proof.Machine.execLutbuild s
  | .alpha => Sys2Proof.Machine.execAlpha s
  | .xform => Sys2Proof.Machine.execXform s

end Sys2Proof.Machine
end

