-- ==== Sys2Proof/Machine/Command.lean ====
section
/-! DEFINITION. Step(cmd) for one command word (30_encoding.md R59), and one move of the host (20_memory.md R41). -/

namespace Sys2Proof.Machine

/-- Step(cmd): an illegal word raises ILLEGAL outside the error state and has no effect in it; a command is executed
(30_encoding.md R59). -/
def runCommand (w : Word) (s : State) : Host.Outcome State Fault Refusal :=
  match decode w with
  | .ok i => exec i s
  | .error _ => unlessError s (raiseError .illegal s)

/-- One move of the host (20_memory.md R41, 70_reset_and_hazards.md R116). -/
def runMove (m : HostMove) (s : State) : Host.Outcome State Fault Refusal :=
  match m with
  | .command w => runCommand w s
  | .reset => .next s.resetCore
  | .pixWrite a v => hostPixWrite a v s
  | .pixRead a => hostPixRead a s
  | .lutRead a => hostLutRead a s

/-- Serve the oldest of the host's pending moves; with none pending the core waits (70_reset_and_hazards.md R116;
log entries 2 and 3). -/
def serve (s : State) : Host.Outcome State Fault Refusal :=
  match s.inbox with
  | [] => .next s
  | m :: rest => runMove m { s with inbox := rest }

/-- The host issues a command word as its very next move. -/
def State.issue (s : State) (w : Word) : State := { s with inbox := .command w :: s.inbox }

end Sys2Proof.Machine
end

