-- ==== Sys2Proof/Machine/Step.lean ====
section
/-! DEFINITION. One step of the machine: one move of the host, a command or another (30_encoding.md R59, 20_memory.md R41). -/

namespace Sys2Proof.Machine

/-- One step (log entry 2). -/
def step (s : State) : Host.Outcome State Fault Refusal := serve s

/-- The state whose very next step runs the word `w` of `nbits` bits: the core has no instruction memory (10_state.md R20),
so the host issues it as its next move (log entry 2). -/
def State.withFetchWord (s : State) (nbits w : Nat) : State := s.issue (tableWord nbits w)

end Sys2Proof.Machine
end

