-- ==== Sys2Proof/Safety.lean ====
section
/-! DEFINITION. The terms in which claims are stated: the invariant, dutiful host moves, and the sequential
pseudocode of LutBuild and XFORM, against which the one-step meanings are compared. -/

namespace Sys2Proof.Machine

/-- What holds in every state that a run reaches. -/
structure State.Inv (s : State) : Prop where
  /-- STATUS[3:1] is hardwired to zero (10_state.md R18). -/
  statusReserved : s.status.extractLsb' 1 3 = 0
  /-- ERR is one of the codes 0 to 5 (60_exceptions.md R103). -/
  errLegal : s.err.toNat ≤ 5
  /-- With LUTV = 0 every LUT byte is unwritten (10_state.md R21, R24, R26). -/
  lutUnbuilt : s.lutv = false → s.lut = []
  /-- With LUTV = 1 the LUT is the table of some tint, every padding byte unwritten (10_state.md R21, R24). -/
  lutBuilt : s.lutv = true → ∃ c, s.lut = tableCells c
  /-- PIX is in canonical form. -/
  pixCanonical : Memory.wf s.pix
  /-- No byte at or above PIX_BYTES has been written, since none exists (20_memory.md R37). -/
  pixInRange : ∀ c ∈ s.pix, c.1 < s.pixBytes
  /-- PIX_BYTES is a configuration of this hardware (00_scope.md R5, 93 U8). -/
  pixBytesLegal : s.pixBytes ≤ Config.maxPixBytes

/-- A host move that touches only bytes that exist (20_memory.md R33, R37). -/
def HostMove.inRange (pixBytes : Nat) : HostMove → Bool
  | .command _ => true
  | .reset => true
  | .pixWrite a _ => decide (a < pixBytes)
  | .pixRead a => decide (a < pixBytes)
  | .lutRead a => decide (a < Config.lutBytes)

/-- Every pending move of the host touches only bytes that exist. -/
def State.hostDutiful (s : State) : Prop := ∀ m ∈ s.inbox, m.inRange s.pixBytes = true

/-- The conditions under which XFORM is not refused (43_xform.md R92, 70_reset_and_hazards.md R118). -/
def State.xformReady (s : State) : Prop :=
  s.err = 0 ∧ 3 ≤ s.height.toNat ∧ 1 ≤ s.width.toNat ∧ s.lutv = true ∧
    4 * s.width.toNat * s.height.toNat ≤ s.pixBytes

/-- The three LutWrites of one iteration of LutBuild's loop, in the order of the pseudocode (41_lutbuild.md R78). -/
def lutIteration (t : Rgb) (lut : Memory) (i : Nat) : Memory :=
  ((lut.write (4 * i + 0) (scaleChannel (brightness i) t.r)).write
    (4 * i + 1) (scaleChannel (brightness i) t.g)).write (4 * i + 2) (scaleChannel (brightness i) t.b)

/-- One iteration of XFORM's inner loop, in the order of the pseudocode: three reads of the memory as it now is, then four
writes (43_xform.md R92). -/
def xformIteration (s : State) (xy : Nat × Nat) : State :=
  let base := 4 * (xy.2 * s.width.toNat + xy.1)
  let r := s.memRead (base + 1)
  let g := s.memRead (base + 2)
  let b := s.memRead (base + 3)
  let l := (3 * r.toNat + 9 * g.toNat + b.toNat) / 4
  { s with
    pix := (((s.pix.write (base + 0) (BitVec.ofNat 8 (alphaAt xy.2 s.height.toNat))).write
      (base + 1) (s.lutByteAt (4 * l + 0))).write
      (base + 2) (s.lutByteAt (4 * l + 1))).write
      (base + 3) (s.lutByteAt (4 * l + 2)) }

/-- The pixels of an image in the order of XFORM's loops: rows from the top, columns from the left (43_xform.md R92). -/
def rowMajor (width height : Nat) : List (Nat × Nat) :=
  (List.range height).flatMap fun y => (List.range width).map fun x => (x, y)

end Sys2Proof.Machine
end

