-- ==== Sys2Proof/Certificates/Slice0/Obligations.lean ====
section
/-! DEFINITION. The statements for the provers, each a numbered rule of spec/ or a consequence of several. -/

open Sys2Proof Sys2Proof.Machine

/-! ### Decoding and encoding (30_encoding.md) -/

/-- A word of each command, and one of each way to be illegal, written out from 30_encoding.md (95_test_vectors.md K1 to K22). -/
def Obligations.WordsOfEveryCommandDecode : Prop :=
  decode 0x10A4B6C7 = .ok (.wr .rgb 0xA4B6C7) ∧
  decode 0x1300FFFF = .ok (.wr .width 0xFFFF) ∧
  decode 0x27000000 = .ok (.rd .status) ∧
  decode 0x30000000 = .ok .rgb2hsv ∧
  decode 0x40000000 = .ok .hsv2rgb ∧
  decode 0x50000000 = .ok .lutbuild ∧
  decode 0x60000000 = .ok .alpha ∧
  decode 0x70000000 = .ok .xform ∧
  decode 0x13010000 = .error .dimensionTooWide ∧
  decode 0x16000000 = .error .readOnlyRegister ∧
  decode 0x28000000 = .error .reservedRegister ∧
  decode 0x30000001 = .error .mustBeZero ∧
  decode 0x80000000 = .error .reservedOpcode

/-- Decoding the encoding of any well-formed command gives it back, every operand at every value (30_encoding.md R51 to R58). -/
def Obligations.DecodeOfEncodeIsIdentity : Prop :=
  ∀ i : Instr, i.wellFormed = true → decode (encode i) = .ok i

/-- Every word that decodes is the encoding of the command it decodes to, and that command is well formed: no two words mean
the same command and no bit is ignored (30_encoding.md R55, R56). -/
def Obligations.DecodedWordIsItsEncoding : Prop :=
  ∀ (w : Word) (i : Instr), decode w = .ok i → i.wellFormed = true ∧ encode i = w

/-- 30_encoding.md R56: the words that do not decode are exactly the reserved encodings of the list, and outside the error
state each is refused with ILLEGAL and changes no other state; the all-zero and the all-ones word are among them. -/
def Obligations.ReservedEncodingsAreRefused : Prop :=
  (∀ w : Word,
    let op := w.toNat / 2 ^ 28
    let reg := w.toNat / 2 ^ 24 % 16
    let imm := w.toNat % 2 ^ 24
    let reserved : Prop :=
      (op = 0 ∨ 8 ≤ op) ∨ (op = 1 ∧ 6 ≤ reg) ∨ (op = 2 ∧ 8 ≤ reg) ∨
      (op = 1 ∧ 3 ≤ reg ∧ reg ≤ 5 ∧ 65536 ≤ imm) ∨ (op = 2 ∧ imm ≠ 0) ∨
      (3 ≤ op ∧ op ≤ 7 ∧ (reg ≠ 0 ∨ imm ≠ 0))
    ((∃ e, decode w = .error e) ↔ reserved) ∧
    (reserved → ∀ s : State, s.err = 0 → runCommand w s = .next (s.setErr 1))) ∧
  (∃ e, decode 0x00000000 = .error e) ∧ (∃ e, decode 0xFFFFFFFF = .error e)

/-! ### The step (30_encoding.md R59, 70_reset_and_hazards.md, 60_exceptions.md) -/

/-- When the oldest pending move of the host is a word that decodes to a command, the step is exec of that command with the
move taken from the inbox, and a word placed by withFetchWord is run by the very next step (30_encoding.md R59; the inbox is
the model's choice, log entry 2). -/
def Obligations.StepRunsTheDecodedCommand : Prop :=
  (∀ (s : State) (w : Word) (rest : List HostMove) (i : Instr),
    s.inbox = .command w :: rest → decode w = .ok i → step s = exec i { s with inbox := rest }) ∧
  (∀ (s : State) (w : Word) (i : Instr), decode w = .ok i → step (s.withFetchWord 32 w.toNat) = exec i s)

/-- 30_encoding.md R59, Step(cmd): the error-state test first, in which only RD executes; then ILLEGAL; then the command by
its own rule. It always answers a next state, and it is the only transition besides reset: every other move of the host
leaves the whole core as it was. -/
def Obligations.CommandStepFollowsThePseudocode : Prop :=
  (∀ (s : State) (w : Word) (r : Reg), s.err ≠ 0 → decode w = .ok (.rd r) →
    runCommand w s = .next { s with rsp := s.readReg r }) ∧
  (∀ (s : State) (w : Word), s.err ≠ 0 → (∀ r, decode w ≠ .ok (.rd r)) → runCommand w s = .next s) ∧
  (∀ (s : State) (w : Word) (e : DecodeError), s.err = 0 → decode w = .error e → runCommand w s = .next (s.setErr 1)) ∧
  (∀ (s : State) (w : Word) (i : Instr), s.err = 0 → decode w = .ok i → runCommand w s = exec i s) ∧
  (∀ (s : State) (w : Word), ∃ t, runCommand w s = .next t) ∧
  (∀ (m : HostMove) (s t : State), (∀ w, m ≠ .command w) → m ≠ .reset → runMove m s = .next t →
    t = { s with pix := t.pix, hostData := t.hostData, draws := t.draws })

/-- With no move of the host pending the core waits: a step, and any number of steps, leaves the state as it is
(70_reset_and_hazards.md R116: it waits for the first command; log entry 3). -/
def Obligations.CoreWaitsForTheHost : Prop :=
  ∀ s : State, s.inbox = [] → step s = .next s ∧ ∀ k, Host.Core.run Sys2Proof.core k s = .next s

/-- 10_state.md R26 and 70_reset_and_hazards.md R117: what the reset event leaves, for every state before it, what State.reset
holds, and that an XFORM or ALPHA issued next is refused with DIM; and the starts
of two runs differ in the arguments of the run only (10_state.md R27). That the four fields of the surroundings are carried over is the model's reading (log entry 19) and rests on no rule. -/
def Obligations.ResetLeavesTheResetState : Prop :=
  (∀ (s : State) (rest : List HostMove), s.inbox = .reset :: rest →
    ∃ t : State, step s = .next t ∧
      t.rgb = 0 ∧ t.hsv = 0 ∧ t.tint = 0 ∧ t.width = 0 ∧ t.height = 0 ∧ t.row = 0 ∧ t.alpha = 0 ∧ t.status = 0 ∧
      t.lutv = false ∧ t.err = 0 ∧ t.rsp = 0 ∧ t.lut = [] ∧ t.pix = s.pix ∧
      t.pixBytes = s.pixBytes ∧ t.inbox = rest ∧ t.hostData = s.hostData ∧ t.draws = s.draws ∧
      exec .xform t = .next (t.setErr 2) ∧ exec .alpha t = .next (t.setErr 2)) ∧
  (State.reset.rgb = 0 ∧ State.reset.hsv = 0 ∧ State.reset.tint = 0 ∧ State.reset.width = 0 ∧ State.reset.height = 0 ∧
    State.reset.row = 0 ∧ State.reset.alpha = 0 ∧ State.reset.status = 0 ∧ State.reset.rsp = 0 ∧ State.reset.lut = []) ∧
  (∀ (n : Nat) (moves : List HostMove), State.resetWith n moves = { State.reset with pixBytes := n, inbox := moves })

/-- 60_exceptions.md R112: in the error state a word that decodes to RD executes, every other word has no effect at all, no
step but reset changes ERR, and reset clears ERR and discards the table. -/
def Obligations.ErrorStateHasNoReturnButReset : Prop :=
  (∀ (s : State) (w : Word) (r : Reg), s.err ≠ 0 → decode w = .ok (.rd r) →
    runCommand w s = .next { s with rsp := s.readReg r }) ∧
  (∀ (s : State) (w : Word), s.err ≠ 0 → (∀ r, decode w ≠ .ok (.rd r)) → runCommand w s = .next s) ∧
  (∀ s t : State, s.err ≠ 0 → s.inbox.head? ≠ some .reset → step s = .next t → t.err = s.err) ∧
  (∀ (s : State) (rest : List HostMove), s.inbox = .reset :: rest →
    ∃ t : State, step s = .next t ∧ t.err = 0 ∧ t.lutv = false ∧ t.lut = [])

/-- A run that starts in the error state and has no reset pending keeps, for any number of steps, every register but RSP, and
the table (10_state.md R22, 60_exceptions.md R112). -/
def Obligations.ErrorStateFreezesTheRun : Prop :=
  ∀ (k : Nat) (s t : State), s.err ≠ 0 → HostMove.reset ∉ s.inbox → Host.Core.run Sys2Proof.core k s = .next t →
    t.status = s.status ∧ t.rgb = s.rgb ∧ t.hsv = s.hsv ∧ t.tint = s.tint ∧ t.width = s.width ∧ t.height = s.height ∧
    t.row = s.row ∧ t.alpha = s.alpha ∧ t.lut = s.lut ∧ t.pixBytes = s.pixBytes

/-- LUTV after a step: cleared by reset, set by a LUTBUILD word outside the error state, otherwise as before
(10_state.md R21, 70_reset_and_hazards.md R116). -/
def Obligations.LutvIsSetByLutbuildAndClearedByReset : Prop :=
  ∀ s t : State, step s = .next t →
    t.lutv = match s.inbox with
      | .reset :: _ => false
      | .command w :: _ => s.lutv || (decide (s.err = 0) && decide (w = 0x50000000))
      | _ => s.lutv

/-- The "written by commands" column of 10_state.md R10, for all commands at once: which command can change which piece of
state. No command changes the host's side of the machine. -/
def Obligations.CommandsWriteOnlyTheirState : Prop :=
  ∀ (i : Instr) (s t : State), exec i s = .next t →
    (t.rgb ≠ s.rgb → i = .hsv2rgb ∨ ∃ v, i = .wr .rgb v) ∧
    (t.hsv ≠ s.hsv → i = .rgb2hsv ∨ ∃ v, i = .wr .hsv v) ∧
    (t.tint ≠ s.tint → ∃ v, i = .wr .tint v) ∧
    (t.width ≠ s.width → ∃ v, i = .wr .width v) ∧
    (t.height ≠ s.height → ∃ v, i = .wr .height v) ∧
    (t.row ≠ s.row → ∃ v, i = .wr .row v) ∧
    (t.alpha ≠ s.alpha → i = .alpha) ∧
    (t.rsp ≠ s.rsp → ∃ r, i = .rd r) ∧
    (t.lutv ≠ s.lutv → i = .lutbuild) ∧
    (t.err ≠ s.err → s.err = 0 ∧ i ≠ .lutbuild ∧ i ≠ .rgb2hsv ∧ i ≠ .hsv2rgb ∧ (∀ r, i ≠ .rd r) ∧
      t = { s with status := t.status }) ∧
    (t.lut ≠ s.lut → i = .lutbuild) ∧
    (t.pix ≠ s.pix → i = .xform) ∧
    t.pixBytes = s.pixBytes ∧ t.inbox = s.inbox ∧ t.hostData = s.hostData ∧ t.draws = s.draws

/-! ### Errors (60_exceptions.md) -/

/-- 60_exceptions.md R111, `raise Error(code)`: ERR takes the code and nothing else changes, not LUTV either; no command
overwrites an earlier code. The codes are those of R103. -/
def Obligations.RaiseErrorWritesOnlyErr : Prop :=
  (∀ (e : ErrorCode) (s : State), ∃ t : State, raiseError e s = .next t ∧ t = { s with status := t.status } ∧
    t.lutv = s.lutv ∧
    t.err.toNat = match e with
      | .illegal => 1
      | .dim => 2
      | .nolut => 3
      | .range => 4
      | .row => 5) ∧
  (∀ (i : Instr) (s t : State), exec i s = .next t → t.err ≠ s.err → s.err = 0)

/-- 60_exceptions.md R110, the priority of errors: in the error state nothing is raised; then ILLEGAL from decode; for ALPHA
DIM before ROW; for XFORM DIM before NOLUT before RANGE; and a command raises at most one. -/
def Obligations.ErrorsAreRaisedInPriorityOrder : Prop :=
  ∀ s : State,
    (∀ w, s.err ≠ 0 → ∃ t : State, runCommand w s = .next t ∧ t.status = s.status) ∧
    (s.err = 0 →
      (∀ w e, decode w = .error e → runCommand w s = .next (s.setErr 1)) ∧
      (s.height.toNat < 3 → exec .alpha s = .next (s.setErr 2)) ∧
      (3 ≤ s.height.toNat → s.height.toNat ≤ s.row.toNat → exec .alpha s = .next (s.setErr 5)) ∧
      (s.height.toNat < 3 ∨ s.width.toNat = 0 → exec .xform s = .next (s.setErr 2)) ∧
      (3 ≤ s.height.toNat → 1 ≤ s.width.toNat → s.lutv = false → exec .xform s = .next (s.setErr 3)) ∧
      (3 ≤ s.height.toNat → 1 ≤ s.width.toNat → s.lutv = true → s.pixBytes < 4 * s.width.toNat * s.height.toNat →
        exec .xform s = .next (s.setErr 4)))

/-! ### Register access (44_regaccess.md) -/

/-- WR outside the error state writes the named register, whole, and nothing else (44_regaccess.md R98). -/
def Obligations.WrWritesTheNamedRegister : Prop :=
  ∀ (s : State) (imm : Packed), s.err = 0 →
    exec (.wr .rgb imm) s = .next { s with rgb := imm } ∧
    exec (.wr .hsv imm) s = .next { s with hsv := imm } ∧
    exec (.wr .tint imm) s = .next { s with tint := imm } ∧
    (imm.toNat < 65536 →
      exec (.wr .width imm) s = .next { s with width := BitVec.ofNat 16 imm.toNat } ∧
      exec (.wr .height imm) s = .next { s with height := BitVec.ofNat 16 imm.toNat } ∧
      exec (.wr .row imm) s = .next { s with row := BitVec.ofNat 16 imm.toNat })

/-- 44_regaccess.md R98 as a rule about words, `0x10000000 + REG * 0x01000000 + IMM`: every legal one writes its register and
nothing else, every other one raises ILLEGAL, and none has an effect in the error state. -/
def Obligations.WrWordsWriteTheirRegister : Prop :=
  (∀ (s : State) (reg imm : Nat), reg ≤ 15 → imm < 2 ^ 24 →
    let w : Word := BitVec.ofNat 32 (0x10000000 + reg * 0x01000000 + imm)
    let legal : Prop := reg ≤ 2 ∨ (reg ≤ 5 ∧ imm < 65536)
    (s.err = 0 → legal → runCommand w s = .next
      (match reg with
      | 0 => { s with rgb := BitVec.ofNat 24 imm }
      | 1 => { s with hsv := BitVec.ofNat 24 imm }
      | 2 => { s with tint := BitVec.ofNat 24 imm }
      | 3 => { s with width := BitVec.ofNat 16 imm }
      | 4 => { s with height := BitVec.ofNat 16 imm }
      | _ => { s with row := BitVec.ofNat 16 imm })) ∧
    (s.err = 0 → ¬ legal → runCommand w s = .next (s.setErr 1)) ∧
    (s.err ≠ 0 → runCommand w s = .next s)) ∧
  (∀ s : State, s.err = 0 → runCommand 0x14000470 s = .next { s with height := 1136 }) ∧
  (∀ s : State, s.err = 0 → runCommand 0x13010000 s = .next (s.setErr 1))

/-- RD puts the named register, zero-extended and right-aligned, into RSP and changes nothing else, in the error state too
(44_regaccess.md R99; STATUS as 10_state.md R18 lays it out). -/
def Obligations.RdReadsTheNamedRegister : Prop :=
  ∀ (s : State) (r : Reg), ∃ t : State, exec (.rd r) s = .next t ∧ t = { s with rsp := t.rsp } ∧
    t.rsp.toNat = match r with
      | .rgb => s.rgb.toNat
      | .hsv => s.hsv.toNat
      | .tint => s.tint.toNat
      | .width => s.width.toNat
      | .height => s.height.toNat
      | .row => s.row.toNat
      | .alpha => s.alpha.toNat
      | .status => 16 * s.err.toNat + s.lutv.toNat

/-- 44_regaccess.md R99 as a rule about words, `0x20000000 + REG * 0x01000000`: REG 0 to 7 with IMM zero reads, in the error
state too; a reserved REG or a non-zero IMM raises ILLEGAL outside the error state and has no effect in it. -/
def Obligations.RdWordsReadTheirRegister : Prop :=
  (∀ (s : State) (reg : Nat), reg ≤ 7 →
    ∃ t : State, runCommand (BitVec.ofNat 32 (0x20000000 + reg * 0x01000000)) s = .next t ∧ t = { s with rsp := t.rsp } ∧
      t.rsp.toNat = match reg with
        | 0 => s.rgb.toNat
        | 1 => s.hsv.toNat
        | 2 => s.tint.toNat
        | 3 => s.width.toNat
        | 4 => s.height.toNat
        | 5 => s.row.toNat
        | 6 => s.alpha.toNat
        | _ => 16 * s.err.toNat + s.lutv.toNat) ∧
  (∀ (s : State) (reg imm : Nat), reg ≤ 15 → imm < 2 ^ 24 → 8 ≤ reg ∨ imm ≠ 0 →
    runCommand (BitVec.ofNat 32 (0x20000000 + reg * 0x01000000 + imm)) s =
      .next (if s.err = 0 then s.setErr 1 else s)) ∧
  (∀ s t : State, s.err = 2 → s.lutv = false → runCommand 0x27000000 s = .next t → t.rsp = 0x00000020)

/-- A value written by WR is the value the next RD of that register returns (44_regaccess.md R98, R99). -/
def Obligations.WrThenRdReturnsTheValue : Prop :=
  ∀ (s : State) (r : Reg) (imm : Packed), s.err = 0 → (Instr.wr r imm).wellFormed = true →
    ∃ t u : State, exec (.wr r imm) s = .next t ∧ exec (.rd r) t = .next u ∧ u.rsp.toNat = imm.toNat ∧
      u = { t with rsp := u.rsp }

/-! ### Colour space conversion (40_colorspace.md) -/

/-- 40_colorspace.md R70: RGB2HSV puts the conversion of RGB's three channels into HSV, h in bits 23 to 16, s in 15 to 8, v in
7 to 0, and changes nothing else; with the corner cases and the example of the rule. -/
def Obligations.Rgb2hsvWritesHsv : Prop :=
  decode 0x30000000 = .ok .rgb2hsv ∧
  (∀ s : State, s.err = 0 →
    ∃ t : State, exec .rgb2hsv s = .next t ∧ t = { s with hsv := t.hsv } ∧
      let c : Rgb := ⟨s.rgb.extractLsb' 16 8, s.rgb.extractLsb' 8 8, s.rgb.extractLsb' 0 8⟩
      let o := rgbToHsv c
      t.hsv.toNat = o.h.toNat * 65536 + o.s.toNat * 256 + o.v.toNat) ∧
  (∀ s : State, s.err ≠ 0 → exec .rgb2hsv s = .next s) ∧
  (∀ c : Byte, rgbToHsv ⟨c, c, c⟩ = ⟨0, 0, c⟩) ∧
  (rgbToHsv ⟨200, 200, 50⟩).h = 43 ∧ (rgbToHsv ⟨255, 0, 255⟩).h = 213 ∧
  rgbToHsv ⟨0xA4, 0xB6, 0xC7⟩ = ⟨0x95, 0x2C, 0xC7⟩

/-- 40_colorspace.md R65, RgbToHsv by what its values satisfy: v is the maximum; s is the truncated 255 * d / v; black and grays
have h = 0; otherwise h is congruent modulo 256 to the branch's offset plus the quotient of 43 times the branch's
difference by d, truncated toward zero, the branches tried in the order r, g, b. -/
def Obligations.RgbToHsvFollowsItsFormula : Prop :=
  ∀ c : Rgb,
    let r : Int := c.r.toNat
    let g : Int := c.g.toNat
    let b : Int := c.b.toNat
    let mx : Int := max r (max g b)
    let d : Int := mx - min r (min g b)
    let o := rgbToHsv c
    let h : Int := o.h.toNat
    let s : Int := o.s.toNat
    let branch : Int × Int := if r = mx then (0, g - b) else if g = mx then (85, b - r) else (171, r - g)
    (o.v.toNat : Int) = mx ∧
    (mx = 0 → o = ⟨0, 0, 0⟩) ∧
    (mx ≠ 0 → s * mx ≤ 255 * d ∧ 255 * d < (s + 1) * mx) ∧
    (s = 0 → h = 0) ∧
    (s ≠ 0 → ∃ q : Int,
      |q| * d ≤ |43 * branch.2| ∧ |43 * branch.2| < (|q| + 1) * d ∧ 0 ≤ q * branch.2 ∧ h = (branch.1 + q) % 256)

/-- The properties of RgbToHsv that 40_colorspace.md R66 lists: (a) s = 0 exactly for a gray; (b) s = 255 exactly when the least
channel of a non-gray is 0; (c) the hues of the r branch; (d) those of the other two, which never wrap. -/
def Obligations.RgbToHsvHuesLieInTheirSectors : Prop :=
  ∀ c : Rgb,
    let mx := max c.r.toNat (max c.g.toNat c.b.toNat)
    let mn := min c.r.toNat (min c.g.toNat c.b.toNat)
    let o := rgbToHsv c
    (o.s = 0 ↔ mx = mn) ∧
    (mx ≠ mn → 1 ≤ o.s.toNat ∧ (o.s.toNat = 255 ↔ mn = 0)) ∧
    (mx ≠ mn → c.r.toNat = mx → o.h.toNat ≤ 43 ∨ 213 ≤ o.h.toNat) ∧
    (mx ≠ mn → c.r.toNat ≠ mx → c.g.toNat = mx → 42 ≤ o.h.toNat ∧ o.h.toNat ≤ 128) ∧
    (mx ≠ mn → c.r.toNat ≠ mx → c.g.toNat ≠ mx → 128 ≤ o.h.toNat ∧ o.h.toNat ≤ 214)

/-- HSV2RGB puts the conversion of HSV's three fields into RGB, r in bits 23 to 16, g in 15 to 8, b in 7 to 0, and changes
nothing else (40_colorspace.md R71; the values rest on the q and t of R68, from general knowledge, log entry 9). -/
def Obligations.Hsv2rgbWritesRgb : Prop :=
  decode 0x40000000 = .ok .hsv2rgb ∧
  (∀ s : State, s.err = 0 →
    ∃ t : State, exec .hsv2rgb s = .next t ∧ t = { s with rgb := t.rgb } ∧
      let c : Hsv := ⟨s.hsv.extractLsb' 16 8, s.hsv.extractLsb' 8 8, s.hsv.extractLsb' 0 8⟩
      let o := hsvToRgb c
      t.rgb.toNat = o.r.toNat * 65536 + o.g.toNat * 256 + o.b.toNat) ∧
  (∀ s : State, s.err ≠ 0 → exec .hsv2rgb s = .next s) ∧
  hsvToRgb ⟨255, 255, 255⟩ = ⟨255, 0, 15⟩ ∧ hsvToRgb ⟨149, 180, 255⟩ = ⟨74, 170, 255⟩

/-- HsvToRgb by what its values satisfy: the gray path, the region of width 43, the remainder, the three intermediates as
truncated multiply-and-shift, and the six-way table (40_colorspace.md R67; q and t are those of R68, from general knowledge,
log entry 9). -/
def Obligations.HsvToRgbFollowsItsFormula : Prop :=
  ∀ c : Hsv,
    let h := c.h.toNat
    let s := c.s.toNat
    let v := c.v.toNat
    let o := hsvToRgb c
    (s = 0 → o = ⟨c.v, c.v, c.v⟩) ∧
    (s ≠ 0 → ∃ region rem p q t : Nat,
      region ≤ 5 ∧ 43 * region ≤ h ∧ h < 43 * (region + 1) ∧ rem = 6 * (h - 43 * region) ∧
      256 * p ≤ v * (255 - s) ∧ v * (255 - s) < 256 * (p + 1) ∧
      256 * q ≤ v * (255 - s * rem / 256) ∧ v * (255 - s * rem / 256) < 256 * (q + 1) ∧
      256 * t ≤ v * (255 - s * (255 - rem) / 256) ∧ v * (255 - s * (255 - rem) / 256) < 256 * (t + 1) ∧
      (o.r.toNat, o.g.toNat, o.b.toNat) = match region with
        | 0 => (v, t, p)
        | 1 => (q, v, p)
        | 2 => (p, v, t)
        | 3 => (p, q, v)
        | 4 => (t, p, v)
        | _ => (v, p, q))

/-- The properties of HsvToRgb that 40_colorspace.md R69 lists: (c) with s not zero one channel is v and the two others are at
most 254, (d) v = 0 gives black, (e) s = 0 gives a gray whatever h is, so that a gray survives the round trip. The bound of
(c) on q and t rests on R68 (log entry 9). -/
def Obligations.HsvToRgbChannelsAreBounded : Prop :=
  (∀ c : Hsv, c.s ≠ 0 →
    let o := hsvToRgb c
    (o.r = c.v ∧ o.g.toNat ≤ 254 ∧ o.b.toNat ≤ 254) ∨ (o.g = c.v ∧ o.r.toNat ≤ 254 ∧ o.b.toNat ≤ 254) ∨
      (o.b = c.v ∧ o.r.toNat ≤ 254 ∧ o.g.toNat ≤ 254)) ∧
  (∀ h s : Byte, hsvToRgb ⟨h, s, 0⟩ = ⟨0, 0, 0⟩) ∧
  (∀ h v : Byte, hsvToRgb ⟨h, 0, v⟩ = ⟨v, v, v⟩) ∧
  (∀ c : Rgb, (rgbToHsv c).s = 0 → hsvToRgb (rgbToHsv c) = c)

/-- The round trip is not the identity in either order: the four examples of 40_colorspace.md R72, and a colour that comes back
changed from the other order. The values rest on R68 (log entry 9). -/
def Obligations.RoundTripIsNotTheIdentity : Prop :=
  (rgbToHsv ⟨0, 255, 0⟩ = ⟨85, 255, 255⟩ ∧ hsvToRgb ⟨85, 255, 255⟩ = ⟨3, 255, 0⟩) ∧
  (rgbToHsv ⟨0, 0, 255⟩ = ⟨171, 255, 255⟩ ∧ hsvToRgb ⟨171, 255, 255⟩ = ⟨0, 3, 255⟩) ∧
  (rgbToHsv ⟨255, 255, 0⟩ = ⟨43, 255, 255⟩ ∧ hsvToRgb ⟨43, 255, 255⟩ = ⟨254, 255, 0⟩) ∧
  (rgbToHsv ⟨164, 182, 199⟩ = ⟨149, 44, 199⟩ ∧ hsvToRgb ⟨149, 44, 199⟩ = ⟨164, 182, 199⟩) ∧
  (∃ c : Hsv, rgbToHsv (hsvToRgb c) ≠ c)

/-! ### The lookup-table builder (41_lutbuild.md) -/

/-- 41_lutbuild.md R75, R77 and R78: LUTBUILD gives the 3072 bytes at 4i + c the value (Brightness(i) * channel) / 256 of the
canonical tint, which is the tint's hue at saturation 180 and value 255; every padding byte keeps what it held; LUTV becomes
1; nothing else changes; in the error state nothing happens. -/
def Obligations.LutbuildWritesTheTable : Prop :=
  (∀ s : State, s.err = 0 →
    ∃ t : State, exec .lutbuild s = .next t ∧ t = { s with lut := t.lut, status := t.status } ∧
      t.lutv = true ∧ t.err = 0 ∧
      (let u : Rgb := ⟨s.tint.extractLsb' 16 8, s.tint.extractLsb' 8 8, s.tint.extractLsb' 0 8⟩
       let k := hsvToRgb ⟨(rgbToHsv u).h, 180, 255⟩
       ∀ i, i < 1024 →
        (∃ v : Byte, t.lut.read (4 * i + 0) = some v ∧ v.toNat = brightness i * k.r.toNat / 256) ∧
        (∃ v : Byte, t.lut.read (4 * i + 1) = some v ∧ v.toNat = brightness i * k.g.toNat / 256) ∧
        (∃ v : Byte, t.lut.read (4 * i + 2) = some v ∧ v.toNat = brightness i * k.b.toNat / 256)) ∧
      (∀ a, a % 4 = 3 ∨ 4096 ≤ a → t.lut.read a = s.lut.read a)) ∧
  (∀ s : State, s.err ≠ 0 → exec .lutbuild s = .next s)

/-- 41_lutbuild.md R76: Brightness(i) = min(255, ((i + 2) >> 2) + 30), in [30, 255]; the rescaled index is a nearest integer to
i / 4; and with round-half-to-even it would be one less exactly at the 113 slots with i mod 8 = 2 and i <= 898. -/
def Obligations.BrightnessFollowsItsFormula : Prop :=
  (∀ i, i < 1024 →
    brightness i = min 255 ((i + 2) / 4 + 30) ∧ 30 ≤ brightness i ∧ brightness i ≤ 255 ∧
    (let q := (i + 2) / 4
     4 * q ≤ i + 2 ∧ i ≤ 4 * q + 1) ∧
    (let even := if i % 4 = 2 then i / 4 + i / 4 % 2 else (i + 2) / 4
     min 255 (even + 30) + (if i % 8 = 2 ∧ i ≤ 898 then 1 else 0) = brightness i)) ∧
  ((List.range 1024).filter (fun i => i % 8 == 2 && decide (i ≤ 898))).length = 113

/-- The properties of the table that 41_lutbuild.md R80 lists: (a) no value above 254, (b) rising along the slots and constant
from slot 898 on, (c) runs of four equal slots, (d) one channel of the canonical tint is 255 and the others at most 254,
(e) a gray tint gives the tint of pure red. The values rest on R68 (log entry 9). -/
def Obligations.TableRisesWithBrightness : Prop :=
  (∀ c : Packed,
    let k := canonicalTint c
    ((k.r = 255 ∧ k.g.toNat ≤ 254 ∧ k.b.toNat ≤ 254) ∨ (k.g = 255 ∧ k.r.toNat ≤ 254 ∧ k.b.toNat ≤ 254) ∨
      (k.b = 255 ∧ k.r.toNat ≤ 254 ∧ k.g.toNat ≤ 254)) ∧
    ∀ ch, ch < 3 → ∀ i j, i ≤ j → j < 1024 →
      ∃ u v : Byte, (tableCells c).read (4 * i + ch) = some u ∧ (tableCells c).read (4 * j + ch) = some v ∧
        u.toNat ≤ v.toNat ∧ v.toNat ≤ 254 ∧
        (898 ≤ i → u = v) ∧ ((i + 2) / 4 = (j + 2) / 4 → u = v)) ∧
  (∀ x : Byte, canonicalTint ((x ++ x) ++ x) = ⟨255, 75, 74⟩) ∧ canonicalTint 0xFF0000 = ⟨255, 75, 74⟩

/-- A second LUTBUILD, with another tint, leaves nothing of the first: it leaves what it alone would have left
(41_lutbuild.md R79, 92_eei_decisions.md D29). -/
def Obligations.SecondLutbuildReplacesTheFirst : Prop :=
  ∀ (s t : State) (c : Packed), s.err = 0 → exec .lutbuild s = .next t →
    ∃ u v : State, exec .lutbuild { t with tint := c } = .next u ∧ exec .lutbuild { s with tint := c } = .next v ∧
      (∀ a, u.lut.read a = v.lut.read a) ∧ u = { v with lut := u.lut }

/-- LUTBUILD is the loop of 41_lutbuild.md R78, whatever the order in which the 1024 slots are taken: the sequential LutWrites
end in the same state. (That the memory is canonical is part of the invariant.) -/
def Obligations.LutbuildEqualsItsLoopInAnyOrder : Prop :=
  ∀ (s : State) (order : List Nat), s.err = 0 → Memory.wf s.lut → order.Perm (List.range 1024) →
    exec .lutbuild s = .next { s with lut := order.foldl (lutIteration (canonicalTint s.tint)) s.lut }.setLutv

/-! ### The alpha gradient (42_alpha.md) -/

/-- 42_alpha.md R83 and R85: ALPHA is refused with DIM when HEIGHT < 3, then with ROW when ROW >= HEIGHT, the register ALPHA
unchanged; otherwise ALPHA takes the value of its row's band, in [127, 255], and nothing else changes; in the error state
nothing happens; with R85's encoding, corner case and example. -/
def Obligations.AlphaWritesTheBandValue : Prop :=
  (∀ s : State,
    let h := s.height.toNat
    let r := s.row.toNat
    (s.err ≠ 0 → exec .alpha s = .next s) ∧
    (s.err = 0 → h < 3 → exec .alpha s = .next (s.setErr 2)) ∧
    (s.err = 0 → 3 ≤ h → h ≤ r → exec .alpha s = .next (s.setErr 5)) ∧
    (s.err = 0 → 3 ≤ h → r < h →
      ∃ t : State, exec .alpha s = .next t ∧ t = { s with alpha := t.alpha } ∧ 127 ≤ t.alpha.toNat ∧
        t.alpha.toNat =
          if r < h / 3 then 127 + r * 128 / (h / 3)
          else if r < 2 * h / 3 then 255
          else 255 - (r - 2 * h / 3) * 128 / (h / 3))) ∧
  decode 0x60000000 = .ok .alpha ∧
  (∀ s : State, s.err = 0 → s.height = 65535 → s.row = 65534 → exec .alpha s = .next { s with alpha := 128 }) ∧
  (∀ s : State, s.err = 0 → s.height = 1136 → s.row = 377 → exec .alpha s = .next { s with alpha := 254 })

/-- The properties of AlphaAt that 42_alpha.md R84 lists: values in [127, 255]; below 255 in band 1; 255 on band 2 and on the
first row of band 3; rising in band 1 and falling in band 3; 127 on row 0 and, when the height is no multiple of 3, on the
last row, there only in band 3. -/
def Obligations.AlphaGradientIsMonotoneInItsBands : Prop :=
  ∀ h r, 3 ≤ h → r < h →
    127 ≤ alphaAt r h ∧ alphaAt r h ≤ 255 ∧
    (r < h / 3 → alphaAt r h ≤ 254) ∧
    (h / 3 ≤ r → r ≤ 2 * h / 3 → alphaAt r h = 255) ∧
    (∀ r', r ≤ r' → r' < h / 3 → alphaAt r h ≤ alphaAt r' h) ∧
    (∀ r', 2 * h / 3 ≤ r → r ≤ r' → r' < h → alphaAt r' h ≤ alphaAt r h) ∧
    alphaAt 0 h = 127 ∧
    (2 * h / 3 ≤ r → (alphaAt r h = 127 ↔ h % 3 ≠ 0 ∧ r = h - 1))

/-! ### The pixel transform engine (43_xform.md) -/

/-- 43_xform.md R91 and R92: an XFORM that passes its tests overwrites every pixel with the alpha of its row and the table's
entry for its luminance index, leaves every byte from 4 * W * H on, and changes no other state; one that does not is refused
with DIM, NOLUT or RANGE, in this order, and touches no memory; in the error state nothing happens. -/
def Obligations.XformTransformsEveryPixel : Prop :=
  ∀ s : State,
    let w := s.width.toNat
    let h := s.height.toNat
    (s.err ≠ 0 → exec .xform s = .next s) ∧
    (s.err = 0 → h < 3 ∨ w = 0 → exec .xform s = .next (s.setErr 2)) ∧
    (s.err = 0 → 3 ≤ h → 1 ≤ w → s.lutv = false → exec .xform s = .next (s.setErr 3)) ∧
    (s.err = 0 → 3 ≤ h → 1 ≤ w → s.lutv = true → s.pixBytes < 4 * w * h → exec .xform s = .next (s.setErr 4)) ∧
    (s.err = 0 → 3 ≤ h → 1 ≤ w → s.lutv = true → 4 * w * h ≤ s.pixBytes →
      ∃ t : State, exec .xform s = .next t ∧ t = { s with pix := t.pix } ∧
        (∀ x y, x < w → y < h →
          let base := 4 * (y * w + x)
          let l := (3 * (s.memRead (base + 1)).toNat + 9 * (s.memRead (base + 2)).toNat +
            (s.memRead (base + 3)).toNat) / 4
          (∃ a : Byte, t.pix.read (base + 0) = some a ∧ a.toNat = alphaAt y h) ∧
          t.pix.read (base + 1) = some (s.lutByteAt (4 * l + 0)) ∧
          t.pix.read (base + 2) = some (s.lutByteAt (4 * l + 1)) ∧
          t.pix.read (base + 3) = some (s.lutByteAt (4 * l + 2))) ∧
        (∀ a, 4 * w * h ≤ a → t.pix.read a = s.pix.read a))

/-- The input byte at offset 0 of a pixel has no effect: two states that differ in PIX at such addresses only are transformed
to the same buffer (20_memory.md R32, R36, 43_xform.md R91). -/
def Obligations.XformIgnoresOffsetZero : Prop :=
  ∀ s s' : State, s.xformReady → s' = { s with pix := s'.pix } →
    (∀ a, a % 4 ≠ 0 → s.memRead a = s'.memRead a) →
    ∃ t t' : State, exec .xform s = .next t ∧ exec .xform s' = .next t' ∧
      ∀ a, a < 4 * s.width.toNat * s.height.toNat → t.pix.read a = t'.pix.read a

/-- The bound of 43_xform.md R90: the luminance index is at most 828, white reaches it, and for any weights that sum to at most
16 it stays below 1021. -/
def Obligations.LumaStaysInsideTheTable : Prop :=
  (∀ c : Rgb, luma c = (3 * c.r.toNat + 9 * c.g.toNat + c.b.toNat) / 4 ∧ luma c ≤ 828) ∧
  luma ⟨255, 255, 255⟩ = 828 ∧
  (∀ wr wg wb r g b : Nat, wr + wg + wb ≤ 16 → r ≤ 255 → g ≤ 255 → b ≤ 255 →
    (wr * r + wg * g + wb * b) / 4 ≤ 1020)

/-- XFORM reads no LUT byte above address 3314 and no padding byte: changing those changes nothing of its result
(43_xform.md R90, 20_memory.md R36, R39). -/
def Obligations.XformReadsOnlyReachableSlots : Prop :=
  ∀ s s' t : State, s.xformReady → s' = { s with lut := s'.lut } →
    (∀ a, a ≤ 3314 → a % 4 ≠ 3 → s.lut.read a = s'.lut.read a) →
    exec .xform s = .next t → exec .xform s' = .next { s' with pix := t.pix }

/-- XFORM is the loop of 43_xform.md R92, whatever the order in which the pixels are taken: the sequential reads and writes, each
on the memory the ones before it left, end in the same state (R93, 20_memory.md R45). -/
def Obligations.XformEqualsItsLoopInAnyOrder : Prop :=
  ∀ (s : State) (order : List (Nat × Nat)), s.xformReady → Memory.wf s.pix →
    order.Perm (rowMajor s.width.toNat s.height.toNat) →
    exec .xform s = .next (order.foldl xformIteration s)

/-- The source's data flow in closed form: after a LUTBUILD, an XFORM gives every pixel the canonical tint scaled by the
brightness of its luminance index (41_lutbuild.md R78, 43_xform.md R92; values rest on log entries 9 to 13). -/
def Obligations.XformAfterLutbuildTintsByBrightness : Prop :=
  ∀ s t : State, s.err = 0 → exec .lutbuild s = .next t → t.xformReady →
    ∃ u : State, exec .xform t = .next u ∧
      ∀ x y, x < s.width.toNat → y < s.height.toNat →
        let base := 4 * (y * s.width.toNat + x)
        let l := (3 * (s.memRead (base + 1)).toNat + 9 * (s.memRead (base + 2)).toNat +
          (s.memRead (base + 3)).toNat) / 4
        let br := min 255 ((l + 2) / 4 + 30)
        let k := canonicalTint s.tint
        u.pix.read (base + 0) = some (BitVec.ofNat 8 (alphaAt y s.height.toNat)) ∧
        u.pix.read (base + 1) = some (BitVec.ofNat 8 (br * k.r.toNat / 256)) ∧
        u.pix.read (base + 2) = some (BitVec.ofNat 8 (br * k.g.toNat / 256)) ∧
        u.pix.read (base + 3) = some (BitVec.ofNat 8 (br * k.b.toNat / 256))

/-- In every state that meets the invariant, no pixel XFORM writes is black: one of its three colour bytes is at least 29
(43_xform.md R92, corner cases; 41_lutbuild.md R80 (d)). -/
def Obligations.NoOutputPixelIsBlack : Prop :=
  ∀ s t : State, s.Inv → s.xformReady → exec .xform s = .next t →
    ∀ x y, x < s.width.toNat → y < s.height.toNat →
      ∃ k v, 1 ≤ k ∧ k ≤ 3 ∧ t.pix.read (4 * (y * s.width.toNat + x) + k) = some v ∧ 29 ≤ v.toNat

/-- A second XFORM over the same buffer is accepted (43_xform.md R94, 70_reset_and_hazards.md R124): after one that was not
refused, another is not refused either. -/
def Obligations.SecondXformIsAccepted : Prop :=
  ∀ s t : State, s.xformReady → exec .xform s = .next t →
    t.xformReady ∧ ∃ u : State, exec .xform t = .next u ∧ u.err = 0

/-! ### The host's side (20_memory.md) -/

/-- The host's accesses to PIX: a write makes one byte hold its value, a read returns the byte and changes nothing; no other byte
and no register is touched (20_memory.md R38, R41; the inbox and hostData are the model's, log entries 2 and 8). -/
def Obligations.HostAccessesPixByteByByte : Prop :=
  (∀ (s : State) (a : Nat) (v : Byte) (rest : List HostMove), s.inbox = .pixWrite a v :: rest → a < s.pixBytes →
    ∃ t : State, step s = .next t ∧ t = { s with inbox := rest, pix := t.pix } ∧
      ∀ b, t.memRead b = if b = a then v else s.memRead b) ∧
  (∀ (s : State) (a : Nat) (rest : List HostMove), s.inbox = .pixRead a :: rest → a < s.pixBytes →
    step s = .next { s with inbox := rest, hostData := s.memRead a })

/-- The host's reads of LUT: a written byte is returned; an unwritten one answers a value about which nothing is said; the core
is not touched (20_memory.md R39, 93 U1; the draw counter is the model's, log entry 5). -/
def Obligations.HostReadsTheTable : Prop :=
  (∀ (s : State) (a : Nat) (v : Byte) (rest : List HostMove), s.inbox = .lutRead a :: rest → a < 4096 →
    s.lut.read a = some v → step s = .next { s with inbox := rest, hostData := v }) ∧
  (∀ (s : State) (a : Nat) (rest : List HostMove), s.inbox = .lutRead a :: rest → a < 4096 →
    s.lut.read a = none →
    ∃ t : State, step s = .next t ∧ t = { s with inbox := rest, hostData := t.hostData, draws := s.draws + 1 })

/-- A host access to a byte that does not exist is a fault, and nothing else is (20_memory.md R33, R37; the fault is the model's
choice, log entry 7). -/
def Obligations.OnlyAbsentBytesFault : Prop :=
  ∀ s : State, (∃ f, step s = .fault f) ↔
    ∃ rest, (∃ a v, s.inbox = .pixWrite a v :: rest ∧ s.pixBytes ≤ a) ∨
      (∃ a, s.inbox = .pixRead a :: rest ∧ s.pixBytes ≤ a) ∨ (∃ a, s.inbox = .lutRead a :: rest ∧ 4096 ≤ a)

/-- While the host asks only for bytes that exist, every step answers a next state, in which that still holds, and PIX_BYTES never
changes (20_memory.md R37, 70_reset_and_hazards.md R127). -/
def Obligations.DutifulHostIsAlwaysServed : Prop :=
  ∀ s : State, s.hostDutiful → ∃ t : State, step s = .next t ∧ t.hostDutiful ∧ t.pixBytes = s.pixBytes

/-! ### The invariant -/

/-- The state after reset meets the invariant, for every PIX_BYTES that is a configuration of this hardware and every sequence
of host moves (10_state.md R26, R27; 00_scope.md R5). -/
def Obligations.ResetMeetsTheInvariant : Prop :=
  State.reset.Inv ∧
  ∀ (n : Nat) (moves : List HostMove), n ≤ 2 ^ 34 → (State.resetWith n moves).Inv

/-- Every step from every state that meets the invariant ends in one that meets it: STATUS[3:1] zero, ERR a legal code, the LUT
wholly unwritten or exactly the table of some tint as LUTV says, PIX canonical and within PIX_BYTES (10_state.md R18, R21,
R24, 60_exceptions.md R103, 20_memory.md R37). -/
def Obligations.StepKeepsTheInvariant : Prop :=
  ∀ s t : State, s.Inv → step s = .next t → t.Inv

/-! ### The architectural state and the arguments of a run (10_state.md R10, R23, R27) -/

/-- Every command is a function from architectural state to architectural state (10_state.md R10, R23), PIX_BYTES being an
argument that XFORM alone reads (R27): of what stands beside the core in a state that meets the invariant nothing else has
any influence on the result, and no command changes it. -/
def Obligations.CommandsAreFunctionsOfTheCoreState : Prop :=
  ∀ (i : Instr) (s s' : State), s.Inv → s'.toCoreState = s.toCoreState → (i = .xform → s'.pixBytes = s.pixBytes) →
    ∃ t t' : State, exec i s = .next t ∧ exec i s' = .next t' ∧ t'.toCoreState = t.toCoreState ∧
      t.toSurroundings = s.toSurroundings ∧ t'.toSurroundings = s'.toSurroundings

/-- For every PIX_BYTES that is a configuration of this hardware and every sequence of host moves that touches only bytes that
exist, the two arguments of a run (10_state.md R27), the run from reset is served at every step: after any number of steps it
is in a state that meets the invariant, PIX_BYTES is the argument, and the moves not yet made are the rest of the sequence
(70_reset_and_hazards.md R127, R129; one move a step is the model's choice, log entry 2). -/
def Obligations.RunsFromResetAreServed : Prop :=
  ∀ (n : Nat) (moves : List HostMove) (k : Nat), n ≤ 2 ^ 34 → (∀ m ∈ moves, m.inRange n = true) →
    ∃ t : State, Host.Core.run Sys2Proof.core k (State.resetWith n moves) = .next t ∧ t.Inv ∧ t.pixBytes = n ∧
      t.inbox = moves.drop k
end

