-- ==== Sys2Proof/Laws/Colour.lean ====
section
/-! SUPPORT. Packing and unpacking of the two colour types are inverse to each other (10_state.md R11 to R13). -/

namespace Sys2Proof.Machine

theorem packed_append (c : Packed) :
    (c.extractLsb' 16 8 ++ c.extractLsb' 8 8) ++ c.extractLsb' 0 8 = c := by
  apply BitVec.eq_of_toNat_eq
  simp only [BitVec.toNat_append, BitVec.extractLsb'_toNat, Nat.shiftRight_eq_div_pow]
  have := c.isLt
  rw [← Nat.shiftLeft_add_eq_or_of_lt (by omega), ← Nat.shiftLeft_add_eq_or_of_lt (by omega)]
  simp only [Nat.shiftLeft_eq]
  omega

theorem append_toNat (x y z : Byte) : ((x ++ y) ++ z).toNat = x.toNat * 65536 + y.toNat * 256 + z.toNat := by
  have := x.isLt; have := y.isLt; have := z.isLt
  simp only [BitVec.toNat_append]
  rw [← Nat.shiftLeft_add_eq_or_of_lt (by omega), ← Nat.shiftLeft_add_eq_or_of_lt (by omega)]
  simp only [Nat.shiftLeft_eq]
  omega

theorem packRgb_unpackRgb (c : Packed) : packRgb (unpackRgb c) = c := packed_append c

theorem packHsv_unpackHsv (c : Packed) : packHsv (unpackHsv c) = c := packed_append c

theorem unpackRgb_packRgb (c : Rgb) : unpackRgb (packRgb c) = c := by
  obtain ⟨x, y, z⟩ := c
  have hx := x.isLt; have hy := y.isLt; have hz := z.isLt
  simp only [unpackRgb, packRgb, Rgb.mk.injEq]
  refine ⟨?_, ?_, ?_⟩ <;> apply BitVec.eq_of_toNat_eq <;>
    simp only [BitVec.extractLsb'_toNat, append_toNat, Nat.shiftRight_eq_div_pow] <;> omega

theorem unpackHsv_packHsv (c : Hsv) : unpackHsv (packHsv c) = c := by
  obtain ⟨x, y, z⟩ := c
  have hx := x.isLt; have hy := y.isLt; have hz := z.isLt
  simp only [unpackHsv, packHsv, Hsv.mk.injEq]
  refine ⟨?_, ?_, ?_⟩ <;> apply BitVec.eq_of_toNat_eq <;>
    simp only [BitVec.extractLsb'_toNat, append_toNat, Nat.shiftRight_eq_div_pow] <;> omega

/-- `{R, G, B}` as a number: R * 65536 + G * 256 + B (30_encoding.md R52). -/
theorem packRgb_toNat (c : Rgb) : (packRgb c).toNat = c.r.toNat * 65536 + c.g.toNat * 256 + c.b.toNat :=
  append_toNat c.r c.g c.b

theorem packHsv_toNat (c : Hsv) : (packHsv c).toNat = c.h.toNat * 65536 + c.s.toNat * 256 + c.v.toNat :=
  append_toNat c.h c.s c.v

end Sys2Proof.Machine
end

