-- ==== Sys2Proof/Laws/Decode.lean ====
section
/-! SUPPORT. The fields of a word and of an encoded command, and what each branch of the decoder can answer. -/

namespace Sys2Proof

/-- The three fields determine the word (30_encoding.md R51). -/
theorem formatC_fields (w : Word) : formatC (opField w) (regField w) (immField w) = w := by
  apply BitVec.eq_of_toNat_eq
  simp only [formatC, opField, regField, immField, BitVec.toNat_append, BitVec.extractLsb'_toNat, Nat.shiftRight_eq_div_pow]
  have := w.isLt
  rw [← Nat.shiftLeft_add_eq_or_of_lt (by omega), ← Nat.shiftLeft_add_eq_or_of_lt (by omega)]
  simp only [Nat.shiftLeft_eq]
  omega

theorem formatC_toNat (op reg : BitVec 4) (imm : Packed) :
    (formatC op reg imm).toNat = op.toNat * 2 ^ 28 + reg.toNat * 2 ^ 24 + imm.toNat := by
  have h1 := op.isLt
  have h2 := reg.isLt
  have h3 := imm.isLt
  simp only [formatC, BitVec.toNat_append]
  rw [← Nat.shiftLeft_add_eq_or_of_lt (by omega), ← Nat.shiftLeft_add_eq_or_of_lt (by omega)]
  simp only [Nat.shiftLeft_eq]
  omega

theorem opField_toNat (w : Word) : (opField w).toNat = w.toNat / 2 ^ 28 := by
  have := w.isLt
  simp only [opField, BitVec.extractLsb'_toNat, Nat.shiftRight_eq_div_pow]; omega

theorem regField_toNat (w : Word) : (regField w).toNat = w.toNat / 2 ^ 24 % 16 := by
  simp only [regField, BitVec.extractLsb'_toNat, Nat.shiftRight_eq_div_pow]

theorem immField_toNat (w : Word) : (immField w).toNat = w.toNat % 2 ^ 24 := by
  simp [immField, BitVec.extractLsb'_toNat]

theorem opField_formatC (op reg : BitVec 4) (imm : Packed) : opField (formatC op reg imm) = op := by
  apply BitVec.eq_of_toNat_eq
  rw [opField_toNat, formatC_toNat]
  have := reg.isLt; have := imm.isLt; omega

theorem regField_formatC (op reg : BitVec 4) (imm : Packed) : regField (formatC op reg imm) = reg := by
  apply BitVec.eq_of_toNat_eq
  rw [regField_toNat, formatC_toNat]
  have := reg.isLt; have := imm.isLt; omega

theorem immField_formatC (op reg : BitVec 4) (imm : Packed) : immField (formatC op reg imm) = imm := by
  apply BitVec.eq_of_toNat_eq
  rw [immField_toNat, formatC_toNat]
  have := reg.isLt; have := imm.isLt; omega

/-- The register map is one to one (30_encoding.md R54). -/
theorem regOfNumber_regNumber (r : Reg) : regOfNumber (regNumber r) = some r := by
  cases r <;> rfl

theorem regNumber_of_regOfNumber (n : BitVec 4) (r : Reg) (h : regOfNumber n = some r) : regNumber r = n := by
  revert h; revert r n; decide

/-- The numbers 8 to 15 name no register (30_encoding.md R54). -/
theorem regOfNumber_eq_none_iff (n : BitVec 4) : regOfNumber n = none ↔ 8 ≤ n.toNat := by
  revert n; decide

/-- A register is writable exactly when its number is at most 5 (30_encoding.md R54). -/
theorem writable_iff (r : Reg) : r.writable = true ↔ (regNumber r).toNat ≤ 5 := by
  cases r <;> decide

/-- A register is a dimension register exactly when its number is 3, 4 or 5 (30_encoding.md R52, R54). -/
theorem isDim_iff (r : Reg) : r.isDim = true ↔ 3 ≤ (regNumber r).toNat ∧ (regNumber r).toNat ≤ 5 := by
  cases r <;> decide

end Sys2Proof
end

