-- ==== Sys2Proof/Laws/State.lean ====
section
/-! SUPPORT. One lemma per field per update of State, each true by rfl, so that no proof unfolds a record update; and what the
updates of STATUS do to its two fields. -/

namespace Sys2Proof.Machine

/-! ### setErr (60_exceptions.md R111) -/

@[simp] theorem State.setErr_rgb (s : State) (e : BitVec 4) : (s.setErr e).rgb = s.rgb := rfl
@[simp] theorem State.setErr_hsv (s : State) (e : BitVec 4) : (s.setErr e).hsv = s.hsv := rfl
@[simp] theorem State.setErr_tint (s : State) (e : BitVec 4) : (s.setErr e).tint = s.tint := rfl
@[simp] theorem State.setErr_width (s : State) (e : BitVec 4) : (s.setErr e).width = s.width := rfl
@[simp] theorem State.setErr_height (s : State) (e : BitVec 4) : (s.setErr e).height = s.height := rfl
@[simp] theorem State.setErr_row (s : State) (e : BitVec 4) : (s.setErr e).row = s.row := rfl
@[simp] theorem State.setErr_alpha (s : State) (e : BitVec 4) : (s.setErr e).alpha = s.alpha := rfl
@[simp] theorem State.setErr_rsp (s : State) (e : BitVec 4) : (s.setErr e).rsp = s.rsp := rfl
@[simp] theorem State.setErr_lut (s : State) (e : BitVec 4) : (s.setErr e).lut = s.lut := rfl
@[simp] theorem State.setErr_pix (s : State) (e : BitVec 4) : (s.setErr e).pix = s.pix := rfl
@[simp] theorem State.setErr_pixBytes (s : State) (e : BitVec 4) : (s.setErr e).pixBytes = s.pixBytes := rfl
@[simp] theorem State.setErr_inbox (s : State) (e : BitVec 4) : (s.setErr e).inbox = s.inbox := rfl
@[simp] theorem State.setErr_hostData (s : State) (e : BitVec 4) : (s.setErr e).hostData = s.hostData := rfl
@[simp] theorem State.setErr_draws (s : State) (e : BitVec 4) : (s.setErr e).draws = s.draws := rfl
@[simp] theorem State.setErr_toSurroundings (s : State) (e : BitVec 4) : (s.setErr e).toSurroundings = s.toSurroundings := rfl
@[simp] theorem State.setErr_status (s : State) (e : BitVec 4) : (s.setErr e).status = statusWord e s.lutv := rfl

/-! ### setLutv (41_lutbuild.md R79) -/

@[simp] theorem State.setLutv_rgb (s : State) : s.setLutv.rgb = s.rgb := rfl
@[simp] theorem State.setLutv_hsv (s : State) : s.setLutv.hsv = s.hsv := rfl
@[simp] theorem State.setLutv_tint (s : State) : s.setLutv.tint = s.tint := rfl
@[simp] theorem State.setLutv_width (s : State) : s.setLutv.width = s.width := rfl
@[simp] theorem State.setLutv_height (s : State) : s.setLutv.height = s.height := rfl
@[simp] theorem State.setLutv_row (s : State) : s.setLutv.row = s.row := rfl
@[simp] theorem State.setLutv_alpha (s : State) : s.setLutv.alpha = s.alpha := rfl
@[simp] theorem State.setLutv_rsp (s : State) : s.setLutv.rsp = s.rsp := rfl
@[simp] theorem State.setLutv_lut (s : State) : s.setLutv.lut = s.lut := rfl
@[simp] theorem State.setLutv_pix (s : State) : s.setLutv.pix = s.pix := rfl
@[simp] theorem State.setLutv_pixBytes (s : State) : s.setLutv.pixBytes = s.pixBytes := rfl
@[simp] theorem State.setLutv_inbox (s : State) : s.setLutv.inbox = s.inbox := rfl
@[simp] theorem State.setLutv_hostData (s : State) : s.setLutv.hostData = s.hostData := rfl
@[simp] theorem State.setLutv_draws (s : State) : s.setLutv.draws = s.draws := rfl
@[simp] theorem State.setLutv_toSurroundings (s : State) : s.setLutv.toSurroundings = s.toSurroundings := rfl
@[simp] theorem State.setLutv_status (s : State) : s.setLutv.status = statusWord s.err true := rfl

/-! ### resetCore (10_state.md R26) -/

theorem State.resetCore_toCoreState (s : State) : s.resetCore.toCoreState = s.toCoreState.afterReset := rfl
@[simp] theorem State.resetCore_rgb (s : State) : s.resetCore.rgb = 0 := rfl
@[simp] theorem State.resetCore_hsv (s : State) : s.resetCore.hsv = 0 := rfl
@[simp] theorem State.resetCore_tint (s : State) : s.resetCore.tint = 0 := rfl
@[simp] theorem State.resetCore_width (s : State) : s.resetCore.width = 0 := rfl
@[simp] theorem State.resetCore_height (s : State) : s.resetCore.height = 0 := rfl
@[simp] theorem State.resetCore_row (s : State) : s.resetCore.row = 0 := rfl
@[simp] theorem State.resetCore_alpha (s : State) : s.resetCore.alpha = 0 := rfl
@[simp] theorem State.resetCore_toSurroundings (s : State) : s.resetCore.toSurroundings = s.toSurroundings := rfl
@[simp] theorem State.resetCore_status (s : State) : s.resetCore.status = 0 := rfl
@[simp] theorem State.resetCore_rsp (s : State) : s.resetCore.rsp = 0 := rfl
@[simp] theorem State.resetCore_lut (s : State) : s.resetCore.lut = [] := rfl
@[simp] theorem State.resetCore_pix (s : State) : s.resetCore.pix = s.pix := rfl
@[simp] theorem State.resetCore_pixBytes (s : State) : s.resetCore.pixBytes = s.pixBytes := rfl
@[simp] theorem State.resetCore_inbox (s : State) : s.resetCore.inbox = s.inbox := rfl
@[simp] theorem State.resetCore_hostData (s : State) : s.resetCore.hostData = s.hostData := rfl
@[simp] theorem State.resetCore_draws (s : State) : s.resetCore.draws = s.draws := rfl

/-! ### issue -/

@[simp] theorem State.issue_toCoreState (s : State) (w : Word) : (s.issue w).toCoreState = s.toCoreState := rfl
@[simp] theorem State.issue_rgb (s : State) (w : Word) : (s.issue w).rgb = s.rgb := rfl
@[simp] theorem State.issue_hsv (s : State) (w : Word) : (s.issue w).hsv = s.hsv := rfl
@[simp] theorem State.issue_tint (s : State) (w : Word) : (s.issue w).tint = s.tint := rfl
@[simp] theorem State.issue_width (s : State) (w : Word) : (s.issue w).width = s.width := rfl
@[simp] theorem State.issue_height (s : State) (w : Word) : (s.issue w).height = s.height := rfl
@[simp] theorem State.issue_row (s : State) (w : Word) : (s.issue w).row = s.row := rfl
@[simp] theorem State.issue_alpha (s : State) (w : Word) : (s.issue w).alpha = s.alpha := rfl
@[simp] theorem State.issue_status (s : State) (w : Word) : (s.issue w).status = s.status := rfl
@[simp] theorem State.issue_rsp (s : State) (w : Word) : (s.issue w).rsp = s.rsp := rfl
@[simp] theorem State.issue_lut (s : State) (w : Word) : (s.issue w).lut = s.lut := rfl
@[simp] theorem State.issue_pix (s : State) (w : Word) : (s.issue w).pix = s.pix := rfl
@[simp] theorem State.issue_pixBytes (s : State) (w : Word) : (s.issue w).pixBytes = s.pixBytes := rfl
@[simp] theorem State.issue_inbox (s : State) (w : Word) : (s.issue w).inbox = .command w :: s.inbox := rfl
@[simp] theorem State.issue_hostData (s : State) (w : Word) : (s.issue w).hostData = s.hostData := rfl
@[simp] theorem State.issue_draws (s : State) (w : Word) : (s.issue w).draws = s.draws := rfl

/-! ### CoreState.reset and resetWith (10_state.md R26, R27) -/

@[simp] theorem CoreState.reset_rgb : CoreState.reset.rgb = 0 := rfl
@[simp] theorem CoreState.reset_hsv : CoreState.reset.hsv = 0 := rfl
@[simp] theorem CoreState.reset_tint : CoreState.reset.tint = 0 := rfl
@[simp] theorem CoreState.reset_width : CoreState.reset.width = 0 := rfl
@[simp] theorem CoreState.reset_height : CoreState.reset.height = 0 := rfl
@[simp] theorem CoreState.reset_row : CoreState.reset.row = 0 := rfl
@[simp] theorem CoreState.reset_alpha : CoreState.reset.alpha = 0 := rfl
@[simp] theorem CoreState.reset_status : CoreState.reset.status = 0 := rfl
@[simp] theorem CoreState.reset_rsp : CoreState.reset.rsp = 0 := rfl
@[simp] theorem CoreState.reset_lut : CoreState.reset.lut = [] := rfl
@[simp] theorem CoreState.reset_pix : CoreState.reset.pix = [] := rfl

@[simp] theorem State.resetWith_toCoreState (n : Nat) (l : List HostMove) : (State.resetWith n l).toCoreState = CoreState.reset :=
  rfl
@[simp] theorem State.resetWith_pixBytes (n : Nat) (l : List HostMove) : (State.resetWith n l).pixBytes = n := rfl
@[simp] theorem State.resetWith_inbox (n : Nat) (l : List HostMove) : (State.resetWith n l).inbox = l := rfl
@[simp] theorem State.resetWith_hostData (n : Nat) (l : List HostMove) : (State.resetWith n l).hostData = 0 := rfl
@[simp] theorem State.resetWith_draws (n : Nat) (l : List HostMove) : (State.resetWith n l).draws = 0 := rfl

/-! ### The fields of STATUS -/

theorem State.err_def (s : State) : s.err = s.status.extractLsb' 4 4 := rfl

theorem State.lutv_def (s : State) : s.lutv = s.status.getLsbD 0 := rfl

/-- ERR of an assembled STATUS. -/
theorem statusWord_err (e : BitVec 4) (l : Bool) : (statusWord e l).extractLsb' 4 4 = e := by
  revert e l; decide

/-- LUTV of an assembled STATUS. -/
theorem statusWord_lutv (e : BitVec 4) (l : Bool) : (statusWord e l).getLsbD 0 = l := by
  revert e l; decide

/-- Bits 3 to 1 of an assembled STATUS are zero (10_state.md R18). -/
theorem statusWord_reserved (e : BitVec 4) (l : Bool) : (statusWord e l).extractLsb' 1 3 = 0 := by
  revert e l; decide

/-- The value of an assembled STATUS. -/
theorem statusWord_toNat (e : BitVec 4) (l : Bool) : (statusWord e l).toNat = 16 * e.toNat + l.toNat := by
  revert e l; decide

/-- A STATUS whose reserved bits are zero is the one its fields determine. -/
theorem statusWord_of_fields (w : Byte) (h : w.extractLsb' 1 3 = 0) :
    statusWord (w.extractLsb' 4 4) (w.getLsbD 0) = w := by
  revert w; decide

@[simp] theorem State.err_setErr (s : State) (e : BitVec 4) : (s.setErr e).err = e := statusWord_err e s.lutv

@[simp] theorem State.lutv_setErr (s : State) (e : BitVec 4) : (s.setErr e).lutv = s.lutv := statusWord_lutv e s.lutv

@[simp] theorem State.err_setLutv (s : State) : s.setLutv.err = s.err := statusWord_err s.err true

@[simp] theorem State.lutv_setLutv (s : State) : s.setLutv.lutv = true := statusWord_lutv s.err true

@[simp] theorem State.err_resetCore (s : State) : s.resetCore.err = 0 :=
  (by decide : (0 : Byte).extractLsb' 4 4 = 0)

@[simp] theorem State.lutv_resetCore (s : State) : s.resetCore.lutv = false :=
  (by decide : (0 : Byte).getLsbD 0 = false)

/-- An error code is never zero and at most 5 (60_exceptions.md R103). -/
theorem ErrorCode.code_range (e : ErrorCode) : e.code ≠ 0 ∧ e.code.toNat ≤ 5 := by
  cases e <;> decide

end Sys2Proof.Machine
end

