-- ==== Sys2Proof/Laws/Exec.lean ====
section
/-! SUPPORT. What each shared operation and each command can answer, said once, for proofs to cite instead of unfolding. -/

namespace Sys2Proof.Machine

theorem unlessError_of_clear (s : State) (run : Host.Outcome State Fault Refusal) (h : s.err = 0) :
    unlessError s run = run := if_pos h

theorem unlessError_of_error (s : State) (run : Host.Outcome State Fault Refusal) (h : s.err ≠ 0) :
    unlessError s run = .next s := if_neg h

theorem unlessError_cases {s t : State} {run : Host.Outcome State Fault Refusal} (h : unlessError s run = .next t) :
    (s.err ≠ 0 ∧ t = s) ∨ (s.err = 0 ∧ run = .next t) := by
  by_cases he : s.err = 0
  · exact .inr ⟨he, by rwa [unlessError_of_clear s run he] at h⟩
  · rw [unlessError_of_error s run he] at h
    cases h; exact .inl ⟨he, rfl⟩

/-- Everything a WR can do (44_regaccess.md R98). -/
theorem execWr_cases {reg : Reg} {imm : Packed} {s t : State} (h : execWr reg imm s = .next t) :
    (s.err ≠ 0 ∧ t = s) ∨
    (s.err = 0 ∧ (Instr.wr reg imm).wellFormed = true ∧ t = s.writeReg reg imm) ∨
    (s.err = 0 ∧ (Instr.wr reg imm).wellFormed = false ∧ t = s.setErr ErrorCode.illegal.code) := by
  rcases unlessError_cases h with h | ⟨he, h⟩
  · exact .inl h
  · split at h
    · next hw => cases h; exact .inr (.inl ⟨he, hw, rfl⟩)
    · next hw => cases h; exact .inr (.inr ⟨he, by simpa using hw, rfl⟩)

/-- Everything an ALPHA can do (42_alpha.md R85). -/
theorem execAlpha_cases {s t : State} (h : execAlpha s = .next t) :
    (s.err ≠ 0 ∧ t = s) ∨
    (s.err = 0 ∧ s.height.toNat < 3 ∧ t = s.setErr ErrorCode.dim.code) ∨
    (s.err = 0 ∧ 3 ≤ s.height.toNat ∧ s.height.toNat ≤ s.row.toNat ∧ t = s.setErr ErrorCode.row.code) ∨
    (s.err = 0 ∧ 3 ≤ s.height.toNat ∧ s.row.toNat < s.height.toNat ∧
      t = { s with alpha := BitVec.ofNat 8 (alphaAt s.row.toNat s.height.toNat) }) := by
  rcases unlessError_cases h with h | ⟨he, h⟩
  · exact .inl h
  · split at h
    · next h3 => cases h; exact .inr (.inl ⟨he, h3, rfl⟩)
    · next h3 =>
      split at h
      · next hr => cases h; exact .inr (.inr (.inl ⟨he, by omega, hr, rfl⟩))
      · next hr => cases h; exact .inr (.inr (.inr ⟨he, by omega, by omega, rfl⟩))

/-- Everything an XFORM can do (43_xform.md R92). -/
theorem execXform_cases {s t : State} (h : execXform s = .next t) :
    (s.err ≠ 0 ∧ t = s) ∨
    (s.err = 0 ∧ (s.height.toNat < 3 ∨ s.width.toNat = 0) ∧ t = s.setErr ErrorCode.dim.code) ∨
    (s.err = 0 ∧ ¬ (s.height.toNat < 3 ∨ s.width.toNat = 0) ∧ s.lutv = false ∧ t = s.setErr ErrorCode.nolut.code) ∨
    (s.err = 0 ∧ ¬ (s.height.toNat < 3 ∨ s.width.toNat = 0) ∧ s.lutv = true ∧ s.pixBytes < bufferBytes s ∧
      t = s.setErr ErrorCode.range.code) ∨
    (s.err = 0 ∧ ¬ (s.height.toNat < 3 ∨ s.width.toNat = 0) ∧ s.lutv = true ∧ bufferBytes s ≤ s.pixBytes ∧
      t = { s with pix := s.pix.fillBelow (bufferBytes s) (xformByte s) }) := by
  rcases unlessError_cases h with h | ⟨he, h⟩
  · exact .inl h
  · split at h
    · next hd => cases h; exact .inr (.inl ⟨he, hd, rfl⟩)
    · next hd =>
      split at h
      · next hl => cases h; exact .inr (.inr (.inl ⟨he, hd, hl, rfl⟩))
      · next hl =>
        have hl : s.lutv = true := by simpa using hl
        split at h
        · next hr => cases h; exact .inr (.inr (.inr (.inl ⟨he, hd, hl, hr, rfl⟩)))
        · next hr => cases h; exact .inr (.inr (.inr (.inr ⟨he, hd, hl, by omega, rfl⟩)))

theorem hostPixWrite_cases {a : Nat} {v : Byte} {s t : State} (h : hostPixWrite a v s = .next t) :
    a < s.pixBytes ∧ t = { s with pix := s.pix.write a v } := by
  rw [hostPixWrite] at h
  split at h
  · next ha => cases h; exact ⟨ha, rfl⟩
  · cases h

theorem hostPixRead_cases {a : Nat} {s t : State} (h : hostPixRead a s = .next t) :
    a < s.pixBytes ∧ t = { s with hostData := s.memRead a } := by
  rw [hostPixRead] at h
  split at h
  · next ha => cases h; exact ⟨ha, rfl⟩
  · cases h

theorem hostLutRead_cases {a : Nat} {s t : State} (h : hostLutRead a s = .next t) :
    a < 4096 ∧ ((∃ v, s.lut.read a = some v ∧ t = { s with hostData := v }) ∨
      (s.lut.read a = none ∧
        t = { s with hostData := Config.lutUnwritten s.draws a, draws := s.draws + 1 })) := by
  rw [hostLutRead] at h
  split at h
  · next ha =>
    refine ⟨ha, ?_⟩
    split at h
    · next v hv => cases h; exact .inl ⟨v, hv, rfl⟩
    · next hv => cases h; exact .inr ⟨hv, rfl⟩
  · cases h

/-- Everything a command word can do (30_encoding.md R59). -/
theorem runCommand_cases {w : Word} {s t : State} (h : runCommand w s = .next t) :
    (∃ i, decode w = .ok i ∧ exec i s = .next t) ∨
    (∃ e, decode w = .error e ∧ s.err ≠ 0 ∧ t = s) ∨
    (∃ e, decode w = .error e ∧ s.err = 0 ∧ t = s.setErr ErrorCode.illegal.code) := by
  rw [runCommand] at h
  split at h
  · next i hi => exact .inl ⟨i, hi, h⟩
  · next e he =>
    rcases unlessError_cases h with ⟨h0, rfl⟩ | ⟨h0, h⟩
    · exact .inr (.inl ⟨e, he, h0, rfl⟩)
    · cases h; exact .inr (.inr ⟨e, he, h0, rfl⟩)

/-- Everything a step can do: wait, or serve the oldest move of the host. -/
theorem step_cases {s t : State} (h : step s = .next t) :
    (s.inbox = [] ∧ t = s) ∨
    ∃ m rest, s.inbox = m :: rest ∧ runMove m { s with inbox := rest } = .next t := by
  rw [step, serve] at h
  split at h
  · next hi => cases h; exact .inl ⟨hi, rfl⟩
  · next m rest hi => exact .inr ⟨m, rest, hi, h⟩

theorem step_of_inbox (s : State) (m : HostMove) (rest : List HostMove) (h : s.inbox = m :: rest) :
    step s = runMove m { s with inbox := rest } := by
  rw [step, serve, h]

end Sys2Proof.Machine
end

