-- ==== Sys2Proof/Laws/Memory.lean ====
section
/-! SUPPORT. What every memory operation does, said once: what a read gives after it, and that it keeps the canonical form.
The read laws hold of every list, canonical or not. -/

namespace Sys2Proof.Machine

@[simp] theorem Memory.read_nil (a : Nat) : Memory.read [] a = none := rfl

theorem Memory.read_cons (c : Host.Cell) (m : Memory) (a : Nat) :
    Memory.read (c :: m) a = if c.1 = a then some c.2 else Memory.read m a := rfl

/-- An address that no cell lists reads as unwritten. -/
theorem Memory.read_eq_none_of_forall_ne (m : Memory) (a : Nat) (h : ∀ c ∈ m, c.1 ≠ a) : m.read a = none := by
  induction m with
  | nil => rfl
  | cons c m ih =>
    rw [Memory.read_cons, if_neg (h c (by simp))]
    exact ih fun d hd => h d (by simp [hd])

/-- A byte that is read is listed. -/
theorem Memory.mem_of_read (m : Memory) (a : Nat) (v : Byte) (h : m.read a = some v) : (a, v) ∈ m := by
  induction m with
  | nil => simp at h
  | cons c m ih =>
    rw [Memory.read_cons] at h
    split at h
    · next he =>
      have : c = (a, v) := Prod.ext he (by simpa using h)
      simp [this]
    · exact List.mem_cons_of_mem _ (ih h)

/-- In a canonical memory a listed byte is the one that is read. -/
theorem Memory.read_of_mem (m : Memory) (hw : Memory.wf m) (c : Host.Cell) (h : c ∈ m) : m.read c.1 = some c.2 := by
  induction m with
  | nil => simp at h
  | cons d m ih =>
    rw [Memory.read_cons]
    rcases List.mem_cons.mp h with rfl | hc
    · simp
    · have hlt := (List.pairwise_cons.mp hw).1 c hc
      rw [if_neg (by omega)]
      exact ih (List.pairwise_cons.mp hw).2 hc

theorem Memory.read_append (m n : Memory) (a : Nat) : Memory.read (m ++ n) a = (m.read a).or (n.read a) := by
  induction m with
  | nil => simp
  | cons c m ih =>
    rw [List.cons_append, Memory.read_cons, Memory.read_cons]
    split <;> simp [ih]

theorem Memory.read_filter (m : Memory) (p : Nat → Bool) (a : Nat) :
    Memory.read (m.filter (fun c => p c.1)) a = if p a then m.read a else none := by
  induction m with
  | nil => simp
  | cons c m ih =>
    rw [List.filter_cons]
    by_cases hp : p c.1 = true
    · rw [if_pos hp, Memory.read_cons, Memory.read_cons, ih]
      by_cases ha : c.1 = a
      · subst ha; simp [hp]
      · simp [ha]
    · rw [if_neg hp, ih, Memory.read_cons]
      by_cases ha : c.1 = a
      · subst ha; simp [hp]
      · simp [ha]

/-- Read after write: the address written holds the byte, every other address is as before. -/
theorem Memory.read_write (m : Memory) (a : Nat) (v : Byte) (b : Nat) :
    (m.write a v).read b = if b = a then some v else m.read b := by
  induction m with
  | nil => simp [Memory.write, Memory.read_cons, eq_comm]
  | cons c m ih =>
    rw [Memory.write]
    split
    · simp [Memory.read_cons, eq_comm]
    · split
      · next h => subst h; by_cases hb : b = c.1 <;> simp [Memory.read_cons, hb, eq_comm]
      · next h =>
        rw [Memory.read_cons, Memory.read_cons, ih]
        by_cases hb : c.1 = b
        · subst hb; simp [Ne.symm h]
        · simp [hb]

/-- A cell of a written memory is the one written or was there before. -/
theorem Memory.mem_write (m : Memory) (a : Nat) (v : Byte) (c : Host.Cell) (h : c ∈ m.write a v) :
    c = (a, v) ∨ c ∈ m := by
  induction m with
  | nil => simpa [Memory.write] using h
  | cons d m ih =>
    rw [Memory.write] at h
    split at h
    · simpa using h
    · split at h
      · rcases List.mem_cons.mp h with h | h <;> simp [h]
      · rcases List.mem_cons.mp h with h | h
        · simp [h]
        · rcases ih h with h | h <;> simp [h]

/-- A write keeps the canonical form. -/
theorem Memory.wf_write (m : Memory) (a : Nat) (v : Byte) (h : Memory.wf m) : Memory.wf (m.write a v) := by
  induction m with
  | nil => simp [Memory.write]
  | cons c m ih =>
    have hc := List.pairwise_cons.mp h
    rw [Memory.write]
    split
    · next hlt =>
      refine List.pairwise_cons.mpr ⟨fun d hd => ?_, h⟩
      rcases List.mem_cons.mp hd with rfl | hd
      · exact hlt
      · exact lt_trans hlt (hc.1 d hd)
    · split
      · next he => exact List.pairwise_cons.mpr ⟨fun d hd => by have := hc.1 d hd; simp only; omega, hc.2⟩
      · refine List.pairwise_cons.mpr ⟨fun d hd => ?_, ih hc.2⟩
        rcases Memory.mem_write m a v d hd with rfl | hd
        · simp only; omega
        · exact hc.1 d hd

/-- Filling the addresses below `n`: they hold what the function gives, every other address is as before. -/
theorem Memory.read_fillBelow (m : Memory) (n : Nat) (f : Nat → Byte) (a : Nat) :
    (m.fillBelow n f).read a = if a < n then some (f a) else m.read a := by
  have key : ∀ l : List Nat, Memory.read (l.map (fun a => (a, f a))) a = if a ∈ l then some (f a) else none := by
    intro l
    induction l with
    | nil => simp
    | cons b l ih =>
      rw [List.map_cons, Memory.read_cons, ih]
      by_cases hb : b = a
      · subst hb; simp
      · simp [hb, Ne.symm hb]
  rw [Memory.fillBelow, Memory.read_append, key, Memory.read_filter m (fun b => decide (n ≤ b))]
  by_cases h : a < n
  · simp [h]
  · simp [h, Nat.le_of_not_lt h]

/-- Filling keeps the canonical form. -/
theorem Memory.wf_fillBelow (m : Memory) (n : Nat) (f : Nat → Byte) (h : Memory.wf m) :
    Memory.wf (m.fillBelow n f) := by
  refine List.pairwise_append.mpr ⟨?_, h.filter _, ?_⟩
  · exact List.pairwise_map.mpr List.pairwise_lt_range
  · intro c hc d hd
    obtain ⟨a, ha, rfl⟩ := List.mem_map.mp hc
    have h1 : a < n := List.mem_range.mp ha
    have h2 : n ≤ d.1 := by simpa using (List.mem_filter.mp hd).2
    simp only; omega

/-- A cell of a filled memory lies below `n` or was there before. -/
theorem Memory.mem_fillBelow (m : Memory) (n : Nat) (f : Nat → Byte) (c : Host.Cell) (h : c ∈ m.fillBelow n f) :
    c.1 < n ∨ c ∈ m := by
  rcases List.mem_append.mp h with h | h
  · obtain ⟨a, ha, rfl⟩ := List.mem_map.mp h
    exact .inl (List.mem_range.mp ha)
  · exact .inr (List.mem_filter.mp h).1

/-- Overlaying a table: an address that is kept and was written is as before, every other one reads from the table. -/
theorem Memory.read_overlay (m table : Memory) (kept : Nat → Bool) (a : Nat) :
    (m.overlay table kept).read a = (if kept a then m.read a else none).or (table.read a) := by
  rw [← Memory.read_filter, Memory.overlay]
  generalize m.filter (fun c => kept c.1) = l
  induction l with
  | nil => simp
  | cons c l ih =>
    rw [List.foldr_cons, Memory.read_write, ih, Memory.read_cons]
    by_cases h : c.1 = a
    · simp [h]
    · simp [h, Ne.symm h]

/-- Overlaying a canonical table gives a canonical memory. -/
theorem Memory.wf_overlay (m table : Memory) (kept : Nat → Bool) (h : Memory.wf table) :
    Memory.wf (m.overlay table kept) := by
  rw [Memory.overlay]
  generalize m.filter (fun c => kept c.1) = l
  induction l with
  | nil => exact h
  | cons c l ih => exact Memory.wf_write _ _ _ ih

/-- Nothing kept: the overlay is the table. -/
theorem Memory.overlay_eq_table (m table : Memory) (kept : Nat → Bool) (h : ∀ c ∈ m, kept c.1 = false) :
    m.overlay table kept = table := by
  rw [Memory.overlay, List.filter_eq_nil_iff.mpr fun c hc => by simp [h c hc]]
  rfl

/-- Equal memories are equal data: canonical memories that read alike are the same list. -/
theorem Memory.ext_of_read (m n : Memory) (hm : Memory.wf m) (hn : Memory.wf n) (h : ∀ a, m.read a = n.read a) :
    m = n := by
  induction m generalizing n with
  | nil =>
    cases n with
    | nil => rfl
    | cons d n => simpa [Memory.read_cons] using h d.1
  | cons c m ih =>
    cases n with
    | nil => simpa [Memory.read_cons] using h c.1
    | cons d n =>
      have hc := List.pairwise_cons.mp hm
      have hd := List.pairwise_cons.mp hn
      have head : c = d := by
        have h1 := Memory.mem_of_read (d :: n) c.1 c.2 (by rw [← h]; simp [Memory.read_cons])
        have h2 := Memory.mem_of_read (c :: m) d.1 d.2 (by rw [h]; simp [Memory.read_cons])
        rcases List.mem_cons.mp h1 with h1 | h1
        · exact h1
        · rcases List.mem_cons.mp h2 with h2 | h2
          · exact h2.symm
          · have := hc.1 _ h2; have := hd.1 _ h1; simp only at *; omega
      subst head
      congr 1
      refine ih n hc.2 hd.2 fun a => ?_
      by_cases ha : c.1 = a
      · subst ha
        rw [Memory.read_eq_none_of_forall_ne m _ fun e he => by have := hc.1 e he; omega,
          Memory.read_eq_none_of_forall_ne n _ fun e he => by have := hd.1 e he; omega]
      · simpa [Memory.read_cons, ha] using h a

/-- Both memories of the state after reset are in canonical form (10_state.md R26). -/
theorem State.reset_memories_wf : Memory.wf State.reset.lut ∧ Memory.wf State.reset.pix :=
  ⟨List.Pairwise.nil, List.Pairwise.nil⟩

end Sys2Proof.Machine
end

