-- ==== Sys2Proof/Laws/LutBuild.lean ====
section
/-! SUPPORT. The table as a memory: its canonical form, its reads, and what LutBuild leaves of the memory it finds. -/

namespace Sys2Proof.Machine

/-- The channel of a colour that byte `c` of a slot holds (20_memory.md R33). -/
def channelOf (t : Rgb) (c : Nat) : Byte :=
  match c with
  | 0 => t.r
  | 1 => t.g
  | _ => t.b

/-- The table of `n` slots. -/
def tableOf (t : Rgb) (n : Nat) : Memory := (List.range n).flatMap (slotCells t)

theorem tableCells_eq (c : Packed) : tableCells c = tableOf (canonicalTint c) 1024 := rfl

theorem mem_slotCells (t : Rgb) (i : Nat) (c : Host.Cell) (h : c ∈ slotCells t i) :
    4 * i ≤ c.1 ∧ c.1 < 4 * i + 3 := by
  simp only [slotCells, lutAddr, Config.lutStride, List.mem_cons, List.not_mem_nil, or_false] at h
  rcases h with rfl | rfl | rfl <;> simp

theorem mem_tableOf (t : Rgb) (n : Nat) (c : Host.Cell) (h : c ∈ tableOf t n) : c.1 < 4 * n ∧ c.1 % 4 ≠ 3 := by
  obtain ⟨i, hi, hc⟩ := List.mem_flatMap.mp h
  have := List.mem_range.mp hi
  have := mem_slotCells t i c hc
  omega

theorem wf_tableOf (t : Rgb) (n : Nat) : Memory.wf (tableOf t n) := by
  refine List.pairwise_flatMap.mpr ⟨fun i _ => ?_, ?_⟩
  · simp [slotCells, lutAddr, Config.lutStride]
  · refine List.pairwise_lt_range.imp fun {i j} hij c hc d hd => ?_
    have := mem_slotCells t i c hc
    have := mem_slotCells t j d hd
    omega

/-- The table is in canonical form. -/
theorem wf_tableCells (c : Packed) : Memory.wf (tableCells c) := wf_tableOf _ _

theorem read_tableOf (t : Rgb) (n i ch : Nat) (hi : i < n) (hc : ch < 3) :
    (tableOf t n).read (4 * i + ch) = some (scaleChannel (brightness i) (channelOf t ch)) := by
  have hm : (4 * i + ch, scaleChannel (brightness i) (channelOf t ch)) ∈ tableOf t n := by
    refine List.mem_flatMap.mpr ⟨i, List.mem_range.mpr hi, ?_⟩
    have : ch = 0 ∨ ch = 1 ∨ ch = 2 := by omega
    rcases this with rfl | rfl | rfl <;> simp [slotCells, lutAddr, Config.lutStride, channelOf]
  exact Memory.read_of_mem _ (wf_tableOf t n) _ hm

/-- Byte `ch` of slot `i` of the table (41_lutbuild.md R78). -/
theorem read_tableCells (c : Packed) (i ch : Nat) (hi : i < 1024) (hc : ch < 3) :
    (tableCells c).read (4 * i + ch) = some (scaleChannel (brightness i) (channelOf (canonicalTint c) ch)) :=
  read_tableOf (canonicalTint c) 1024 i ch hi hc

/-- A padding byte, and an address past the table, is not in the table (10_state.md R24). -/
theorem read_tableCells_none (c : Packed) (a : Nat) (h : a % 4 = 3 ∨ 4096 ≤ a) : (tableCells c).read a = none := by
  refine Memory.read_eq_none_of_forall_ne _ _ fun d hd => ?_
  have := mem_tableOf (canonicalTint c) 1024 d hd
  omega

theorem notInTable_iff (a : Nat) : notInTable a = true ↔ a % 4 = 3 ∨ 4096 ≤ a := by
  rw [notInTable, Bool.or_eq_true, beq_iff_eq, decide_eq_true_iff]
  rfl

/-- What LutBuild makes of a memory: the table where it writes, the memory as it was elsewhere (41_lutbuild.md R78). -/
theorem read_lutBuild (c : Packed) (m : Memory) (a : Nat) :
    (lutBuild c m).read a = if a % 4 = 3 ∨ 4096 ≤ a then m.read a else (tableCells c).read a := by
  rw [lutBuild, Memory.read_overlay]
  by_cases h : a % 4 = 3 ∨ 4096 ≤ a
  · rw [if_pos ((notInTable_iff a).mpr h), if_pos h, read_tableCells_none c a h, Option.or_none]
  · rw [if_neg (fun hn => h ((notInTable_iff a).mp hn)), if_neg h, Option.none_or]

/-- LutBuild leaves a memory in canonical form. -/
theorem wf_lutBuild (c : Packed) (m : Memory) : Memory.wf (lutBuild c m) :=
  Memory.wf_overlay _ _ _ (wf_tableCells c)

/-- On an unwritten LUT, LutBuild gives the table. -/
theorem lutBuild_nil (c : Packed) : lutBuild c [] = tableCells c :=
  Memory.overlay_eq_table _ _ _ (by simp)

/-- A second LutBuild leaves nothing of the first (92 D29). -/
theorem lutBuild_tableCells (c d : Packed) : lutBuild c (tableCells d) = tableCells c := by
  refine Memory.overlay_eq_table _ _ _ fun e he => ?_
  have := mem_tableOf (canonicalTint d) 1024 e he
  rw [Bool.eq_false_iff, Ne, notInTable_iff]
  omega

end Sys2Proof.Machine
end

