-- ==== Sys2Proof/Laws/PerInstr.lean ====
section
/-! SUPPORT. The statements made per command: the word of a command carries the OP value of its row of the opcode map, and
zero in every field its row does not use (30_encoding.md R53, R55). -/

namespace Sys2Proof.Laws

/-- The OP value of a command's row of the opcode map (30_encoding.md R53). -/
def opcodeOf : Instr → Nat
  | .wr _ _ => 1
  | .rd _ => 2
  | .rgb2hsv => 3
  | .hsv2rgb => 4
  | .lutbuild => 5
  | .alpha => 6
  | .xform => 7

/-- Whether a command's row uses the REG field (30_encoding.md R53). -/
def usesReg : Instr → Bool
  | .wr _ _ => true
  | .rd _ => true
  | .rgb2hsv => false
  | .hsv2rgb => false
  | .lutbuild => false
  | .alpha => false
  | .xform => false

/-- Whether a command's row uses the IMM field (30_encoding.md R53). -/
def usesImm : Instr → Bool
  | .wr _ _ => true
  | .rd _ => false
  | .rgb2hsv => false
  | .hsv2rgb => false
  | .lutbuild => false
  | .alpha => false
  | .xform => false

namespace OpcodeField

/-- The word of a command carries its row's OP, and zero in the fields the row does not use. -/
def Statement (i : Instr) : Prop :=
  (opField (encode i)).toNat = opcodeOf i ∧
    (usesReg i = false → regField (encode i) = 0) ∧ (usesImm i = false → immField (encode i) = 0)

theorem wr (reg : Reg) (imm : Packed) : Statement (.wr reg imm) :=
  ⟨by simp [encode, opField_formatC, opcodeOf], by simp [usesReg], by simp [usesImm]⟩

theorem rd (reg : Reg) : Statement (.rd reg) :=
  ⟨by simp [encode, opField_formatC, opcodeOf], by simp [usesReg], fun _ => immField_formatC _ _ _⟩

theorem rgb2hsv : Statement .rgb2hsv := ⟨rfl, fun _ => regField_formatC _ _ _, fun _ => immField_formatC _ _ _⟩

theorem hsv2rgb : Statement .hsv2rgb := ⟨rfl, fun _ => regField_formatC _ _ _, fun _ => immField_formatC _ _ _⟩

theorem lutbuild : Statement .lutbuild := ⟨rfl, fun _ => regField_formatC _ _ _, fun _ => immField_formatC _ _ _⟩

theorem alpha : Statement .alpha := ⟨rfl, fun _ => regField_formatC _ _ _, fun _ => immField_formatC _ _ _⟩

theorem xform : Statement .xform := ⟨rfl, fun _ => regField_formatC _ _ _, fun _ => immField_formatC _ _ _⟩

end OpcodeField

end Sys2Proof.Laws
end

