-- ==== Sys2Proof/Laws/Xform.lean ====
section
/-! SUPPORT. The addresses of the pixel buffer (20_memory.md R31) and what XFORM writes to each. -/

namespace Sys2Proof.Machine

/-- The address of a byte of a pixel of the image lies in the buffer. -/
theorem pixAddr_lt (w h x y k : Nat) (hx : x < w) (hy : y < h) (hk : k < 4) :
    4 * (y * w + x) + k < 4 * w * h := by
  have h1 : y * w + w ≤ h * w := by
    have := Nat.mul_le_mul_right w (Nat.succ_le_of_lt hy)
    rwa [Nat.succ_mul] at this
  have h2 : 4 * w * h = 4 * (h * w) := by rw [Nat.mul_assoc, Nat.mul_comm w h]
  omega

/-- The row, the first byte and the offset of a byte of a pixel. -/
theorem pixAddr_parts (w x y k : Nat) (hx : x < w) (hk : k < 4) :
    (4 * (y * w + x) + k) / 4 = y * w + x ∧ (y * w + x) / w = y ∧ (y * w + x) % w = x ∧
      (4 * (y * w + x) + k) % 4 = k := by
  refine ⟨by omega, ?_, ?_, by omega⟩
  · rw [Nat.mul_comm, Nat.mul_add_div (by omega), Nat.div_eq_of_lt hx, Nat.add_zero]
  · rw [Nat.mul_comm, Nat.mul_add_mod, Nat.mod_eq_of_lt hx]

/-- Every byte of the buffer belongs to exactly one pixel of the image. -/
theorem pixAddr_surjective (w h a : Nat) (ha : a < 4 * w * h) :
    ∃ x y k, x < w ∧ y < h ∧ k < 4 ∧ a = 4 * (y * w + x) + k := by
  have hw : 0 < w := by
    rcases Nat.eq_zero_or_pos w with rfl | hw
    · simp at ha
    · exact hw
  have ha' : a / 4 < w * h := by
    rw [Nat.mul_assoc] at ha; omega
  refine ⟨a / 4 % w, a / 4 / w, a % 4, Nat.mod_lt _ hw, ?_, by omega, ?_⟩
  · exact Nat.div_lt_of_lt_mul ha'
  · have := Nat.div_add_mod (a / 4) w
    rw [Nat.mul_comm (a / 4 / w) w, this]; omega

/-- What XFORM writes to a byte of a pixel (43_xform.md R91, R92). -/
theorem xformByte_pixAddr (s : State) (x y k : Nat) (hx : x < s.width.toNat) (hk : k < 4) :
    xformByte s (4 * (y * s.width.toNat + x) + k) =
      outByte (pixelOut s (s.pixelIn (4 * (y * s.width.toNat + x)))
        (BitVec.ofNat 8 (alphaAt y s.height.toNat))) k := by
  obtain ⟨h1, h2, -, h4⟩ := pixAddr_parts s.width.toNat x y k hx hk
  simp only [xformByte, Config.pixStride, h1, h2, h4]

/-- The luminance index, with the weights and the shift as numbers (43_xform.md R89). -/
theorem luma_eq (c : Rgb) : luma c = (3 * c.r.toNat + 9 * c.g.toNat + c.b.toNat) / 4 := by
  simp [luma, Params.lumaWR, Params.lumaWG, Params.lumaWB, Params.lumaShift, Nat.shiftRight_eq_div_pow]

/-- The bound on the luminance index (43_xform.md R90). -/
theorem luma_le (c : Rgb) : luma c ≤ 828 := by
  have := c.r.isLt; have := c.g.isLt; have := c.b.isLt
  rw [luma_eq]; omega

end Sys2Proof.Machine
end

