-- ==== Sys2Proof/Tests/Slice0.lean ====
section
/-! SUPPORT. Tests whose expected values are those of spec/95_test_vectors.md (the vector is named before each), and for each
statement with hypotheses a witness: concrete states and operands that meet them together. -/

namespace Sys2Proof.Tests

open Sys2Proof.Machine

/-! ### Helpers -/

/-- The next state of an outcome; a stop answers a state no test expects. -/
def after (o : Host.Outcome State Fault Refusal) : State :=
  match o with
  | .next t => t
  | .fault _ => { State.reset with rsp := 0xFFFFFFFF }
  | .refused _ => { State.reset with rsp := 0xFFFFFFFF }

/-- Whether an outcome is a next state. -/
def answers (o : Host.Outcome State Fault Refusal) : Bool :=
  match o with
  | .next _ => true
  | .fault _ => false
  | .refused _ => false

theorem next_of_answers (o : Host.Outcome State Fault Refusal) (h : answers o = true) : ∃ t, o = .next t := by
  cases o with
  | next t => exact ⟨t, rfl⟩
  | fault r => cases h
  | refused r => cases h

theorem eq_next_after (o : Host.Outcome State Fault Refusal) (h : answers o = true) : o = .next (after o) := by
  cases o with
  | next t => rfl
  | fault r => cases h
  | refused r => cases h

/-- The error state that vector E5 of 95_test_vectors.md 2.10 ends in. -/
def dimError : State := { State.reset with height := 2, status := 0x20 }

/-- The pixels of program P2 of 95_test_vectors.md, without the offsets 0. -/
def p2Pixels : Memory :=
  [(1, 0), (2, 0), (3, 0), (5, 255), (6, 255), (7, 255), (9, 255), (10, 0), (11, 0), (13, 0), (14, 255), (15, 0),
   (17, 0), (18, 0), (19, 255), (21, 0xA4), (22, 0xB6), (23, 0xC7), (24, 0x5A)]

/-- Program P2 of 95_test_vectors.md just before its LUTBUILD, the dimensions already written. -/
def unbuilt : State :=
  { State.reset with tint := 0xFF0000, width := 2, height := 3, pix := p2Pixels, pixBytes := 32 }

/-- Program P2 of 95_test_vectors.md just before its XFORM. -/
def ready : State := { unbuilt with status := 1, lut := tableCells 0xFF0000 }

/-! ### Well-formedness: each check refuses an ill-formed term (30_encoding.md R55, R56) -/

theorem test_wellFormed_refuses_read_only_alpha : (Instr.wr .alpha 0).wellFormed = false := by decide
theorem test_wellFormed_refuses_read_only_status : (Instr.wr .status 1).wellFormed = false := by decide
theorem test_wellFormed_refuses_wide_width : (Instr.wr .width 0x010000).wellFormed = false := by decide
theorem test_wellFormed_refuses_wide_height : (Instr.wr .height 0xFFFFFF).wellFormed = false := by decide
theorem test_wellFormed_refuses_wide_row : (Instr.wr .row 65536).wellFormed = false := by decide
theorem test_wellFormed_takes_the_widest : (Instr.wr .row 65535).wellFormed = true ∧ (Instr.wr .tint 0xFFFFFF).wellFormed = true := by
  decide

/-! ### Decoding: words written out from 30_encoding.md R51 to R55 (vectors K1 to K22 and W1 to W8) -/

-- OP 0001, REG, IMM: the six writable registers.
theorem test_decode_wr_rgb : decode 0b00010000_101001001011011011000111 = .ok (.wr .rgb 0xA4B6C7) := by decide
theorem test_decode_wr_hsv : decode 0b00010001_111111111111111111111111 = .ok (.wr .hsv 0xFFFFFF) := by decide
theorem test_decode_wr_tint : decode 0b00010010_101001001011011011000111 = .ok (.wr .tint 0xA4B6C7) := by decide
theorem test_decode_wr_width : decode 0b00010011_000000001111111111111111 = .ok (.wr .width 65535) := by decide
theorem test_decode_wr_height : decode 0b00010100_000000000000010001110000 = .ok (.wr .height 1136) := by decide
theorem test_decode_wr_row : decode 0b00010101_000000000000000000000101 = .ok (.wr .row 5) := by decide
-- OP 0010, REG: the eight registers that can be read.
theorem test_decode_rd :
    decode 0x20000000 = .ok (.rd .rgb) ∧ decode 0x21000000 = .ok (.rd .hsv) ∧ decode 0x22000000 = .ok (.rd .tint) ∧
    decode 0x23000000 = .ok (.rd .width) ∧ decode 0x24000000 = .ok (.rd .height) ∧ decode 0x25000000 = .ok (.rd .row) ∧
    decode 0x26000000 = .ok (.rd .alpha) ∧ decode 0b00100111_000000000000000000000000 = .ok (.rd .status) := by decide
-- OP 0011 to 0111, every other bit zero.
theorem test_decode_rgb2hsv : decode 0b00110000_000000000000000000000000 = .ok .rgb2hsv := by decide
theorem test_decode_hsv2rgb : decode 0b01000000_000000000000000000000000 = .ok .hsv2rgb := by decide
theorem test_decode_lutbuild : decode 0b01010000_000000000000000000000000 = .ok .lutbuild := by decide
theorem test_decode_alpha : decode 0b01100000_000000000000000000000000 = .ok .alpha := by decide
theorem test_decode_xform : decode 0b01110000_000000000000000000000000 = .ok .xform := by decide
-- K3, K5, K6, K7, K10, K11, K13, K14, K19, K20, K21, K22: illegal, each by the clause of R56 it breaks.
theorem test_decode_refuses_wide_dimension : decode 0x13010000 = .error .dimensionTooWide := by decide
theorem test_decode_refuses_read_only :
    decode 0x16000000 = .error .readOnlyRegister ∧ decode 0x17000001 = .error .readOnlyRegister := by decide
theorem test_decode_refuses_reserved_register :
    decode 0x18000000 = .error .reservedRegister ∧ decode 0x28000000 = .error .reservedRegister := by decide
theorem test_decode_refuses_non_zero_field :
    decode 0x20000001 = .error .mustBeZero ∧ decode 0x30000001 = .error .mustBeZero ∧
    decode 0x31000000 = .error .mustBeZero ∧ decode 0x7F000000 = .error .mustBeZero := by decide
theorem test_decode_refuses_reserved_opcode :
    decode 0x80000000 = .error .reservedOpcode ∧ decode 0x00000000 = .error .reservedOpcode ∧
    decode 0xFFFFFFFF = .error .reservedOpcode := by decide
-- 30_encoding.md R60: the assembled examples.
theorem test_encode_examples :
    encode (.wr .tint 0xA4B6C7) = 0x12A4B6C7 ∧ encode (.wr .height 1136) = 0x14000470 ∧
    encode (.rd .alpha) = 0x26000000 := by decide
theorem test_decodeTableWord : decodeTableWord 32 0x27000000 = some (.rd .status) ∧ decodeTableWord 32 0 = none := by decide

/-! ### WR and RD (vectors W1, W3, W5, P2 step 6) -/

-- W3: TINT takes the value and STATUS stays 0x00.
theorem test_wr_tint_does_not_build :
    (after (exec (.wr .tint 0xA4B6C7) State.reset)).tint = 0xA4B6C7 ∧
    (after (exec (.wr .tint 0xA4B6C7) State.reset)).status = 0 := by decide
-- W5, the step itself: the host's next move is the word 0x14000470.
theorem test_step_wr_height : (after (step (State.reset.withFetchWord 32 0x14000470))).height = 1136 := by decide
-- E5 continued by RD STATUS: RSP = 0x00000020; the read runs in the error state.
theorem test_rd_status_in_error : (after (exec (.rd .status) dimError)).rsp = 0x00000020 := by decide
-- W1: zero-extended, right-aligned.
theorem test_rd_rgb : (after (exec (.rd .rgb) { State.reset with rgb := 0x123456 })).rsp = 0x00123456 := by decide

/-! ### RGB2HSV (vector A10) and the hue branches -/

theorem test_rgb2hsv_b_branch : (after (exec .rgb2hsv { State.reset with rgb := 0xA4B6C7 })).hsv = 0x952CC7 := by decide
-- A9 (the hue wraps), A11 (truncation toward zero), A12, A18, A21 (a tie of g and b goes to g), A28.
theorem test_rgbToHsv_vectors :
    rgbToHsv ⟨255, 0, 255⟩ = ⟨213, 255, 255⟩ ∧ rgbToHsv ⟨255, 0, 1⟩ = ⟨0, 255, 255⟩ ∧ rgbToHsv ⟨200, 100, 150⟩ = ⟨235, 127, 200⟩ ∧
    rgbToHsv ⟨20, 30, 10⟩ = ⟨64, 170, 30⟩ ∧ rgbToHsv ⟨50, 200, 200⟩ = ⟨128, 191, 200⟩ ∧
    rgbToHsv ⟨254, 0, 255⟩ = ⟨213, 255, 255⟩ := by decide

/-! ### HSV2RGB (program P1 step 4, vector B2) -/

theorem test_hsv2rgb_region_3 : (after (exec .hsv2rgb { State.reset with hsv := 0x952CC7 })).rgb = 0xA4B6C7 := by decide
theorem test_hsv2rgb_gray : (after (exec .hsv2rgb { State.reset with hsv := 0x4D0021 })).rgb = 0x212121 := by decide

/-! ### LUTBUILD (program P7, 41_lutbuild.md R79) -/

-- P7 steps 4 and 7: slot 0 is (8, 19, 29), slot 1023 is (73, 169, 254).
theorem test_lutbuild_first_and_last_slot :
    let t := after (exec .lutbuild { State.reset with tint := 0xA4B6C7 })
    (t.lut.read 0, t.lut.read 1, t.lut.read 2) = (some 8, some 19, some 29) ∧
    (t.lut.read 4092, t.lut.read 4093, t.lut.read 4094) = (some 73, some 169, some 254) := by decide +kernel
-- P6 step 1 (TINT = 0 gives the red table, STATUS = 0x01); a padding byte stays unwritten (P7 step 5).
theorem test_lutbuild_of_zero_tint :
    let t := after (exec .lutbuild State.reset)
    t.status = 0x01 ∧ t.lut.read 0 = some 29 ∧ t.lut.read 3 = none := by decide +kernel

/-! ### ALPHA (42_alpha.md R85, vector E6) -/

-- R85, corner case and example: HEIGHT 65535, ROW 65534 gives 128; HEIGHT 1136, ROW 377 gives 254.
theorem test_alpha_last_and_first_band :
    (after (exec .alpha { State.reset with height := 65535, row := 65534 })).alpha = 128 ∧
    (after (exec .alpha { State.reset with height := 1136, row := 377 })).alpha = 254 := by decide
-- E6: ROW = HEIGHT is refused with STATUS 0x50.
theorem test_alpha_refuses_row : (after (exec .alpha { State.reset with height := 3, row := 3 })).status = 0x50 := by decide

/-! ### XFORM (program P2, vector E8) -/

-- P2: the 24 output bytes, and the byte from 24 on.
theorem test_xform_program_p2 :
    (after (exec .xform ready)).pix.map (fun c => c.2.toNat) =
      [0x7F, 0x1D, 0x08, 0x08, 0x7F, 0xEC, 0x45, 0x44, 0xFF, 0x4D, 0x16, 0x16, 0xFF, 0xAC, 0x32, 0x32,
       0xFF, 0x2D, 0x0D, 0x0D, 0xFF, 0xAF, 0x33, 0x32, 0x5A] := by decide +kernel
-- E8: RANGE, STATUS 0x41, no byte written.
theorem test_xform_refuses_range :
    (after (exec .xform { ready with pixBytes := 16 })).status = 0x41 ∧
    (after (exec .xform { ready with pixBytes := 16 })).pix = p2Pixels := by decide +kernel

/-! ### Errors and reset (vectors E1, E14, E13) -/

-- E1: the all-zero word raises ILLEGAL.
theorem test_zero_word_is_illegal : (after (step (State.reset.withFetchWord 32 0))).status = 0x10 := by decide
-- E14: an illegal RD in the error state changes nothing.
theorem test_illegal_rd_in_error : after (runCommand 0x20000001 dimError) = dimError := by decide
-- E13: reset clears ERR and HEIGHT.
theorem test_reset_clears_error :
    (after (step { dimError with inbox := [.reset] })).status = 0 ∧ (after (step { dimError with inbox := [.reset] })).height = 0 := by
  decide

/-! ### Witnesses: the hypotheses of each statement are met together -/

theorem witness_DecodeOfEncodeIsIdentity :
    (Instr.wr .width 0xFFFF).wellFormed = true ∧ (Instr.wr .hsv 0xFFFFFF).wellFormed = true ∧
    (Instr.rd .status).wellFormed = true ∧ Instr.xform.wellFormed = true := by decide

theorem witness_DecodedWordIsItsEncoding :
    decode 0x1500FFFF = .ok (.wr .row 0xFFFF) ∧ decode 0x27000000 = .ok (.rd .status) := by decide

/-- One word for each alternative of the list of reserved encodings, at the boundary of its range. -/
theorem witness_ReservedEncodingsAreRefused :
    State.reset.err = 0 ∧ decode 0x0FFFFFFF = .error .reservedOpcode ∧ decode 0x80000000 = .error .reservedOpcode ∧
    decode 0x16000000 = .error .readOnlyRegister ∧ decode 0x28000000 = .error .reservedRegister ∧
    decode 0x15010000 = .error .dimensionTooWide ∧ decode 0x27000001 = .error .mustBeZero ∧
    decode 0x31000000 = .error .mustBeZero ∧ decode 0x70000001 = .error .mustBeZero := by decide

theorem witness_StepRunsTheDecodedCommand :
    ({ State.reset with inbox := [.command 0x60000000, .reset] } : State).inbox = .command 0x60000000 :: [.reset] ∧
    decode 0x60000000 = .ok .alpha := by decide

theorem witness_CommandStepFollowsThePseudocode :
    (dimError.err ≠ 0 ∧ decode 0x24000000 = .ok (.rd .height)) ∧
    (∀ r, decode 0x50000000 ≠ .ok (.rd r)) ∧ (∀ r, decode 0x28000000 ≠ .ok (.rd r)) ∧
    (State.reset.err = 0 ∧ decode 0x20000001 = .error .mustBeZero ∧ decode 0x70000000 = .ok .xform) ∧
    (∀ w, HostMove.pixWrite 31 7 ≠ .command w) ∧ HostMove.pixWrite 31 7 ≠ .reset ∧
    (∃ t, runMove (.pixWrite 31 7) ready = .next t) := by
  refine ⟨by decide, ?_, ?_, by decide, nofun, by decide, next_of_answers _ (by decide)⟩
  · intro r; cases r <;> decide
  · intro r; cases r <;> decide

theorem witness_CoreWaitsForTheHost : ready.inbox = [] := rfl

theorem witness_ResetLeavesTheResetState : ({ ready with inbox := [.reset] } : State).inbox = .reset :: [] := rfl

theorem witness_ErrorStateHasNoReturnButReset :
    let s : State := { dimError with inbox := [.command 0x14000003, .reset] }
    s.err ≠ 0 ∧ s.inbox.head? ≠ some .reset ∧ (∃ t, step s = .next t) ∧ decode 0x27000000 = .ok (.rd .status) ∧
      (∀ r, decode 0x14000003 ≠ .ok (.rd r)) ∧
      ({ dimError with inbox := [.reset] } : State).inbox = .reset :: [] :=
  ⟨by decide, by decide, next_of_answers _ (by decide), by decide, fun r => by cases r <;> decide, rfl⟩

/-- Steps 5 and 6 of program P4 of 95_test_vectors.md. -/
theorem witness_ErrorStateFreezesTheRun :
    let s : State := { dimError with inbox := [.command 0x14000003, .command 0x24000000] }
    s.err ≠ 0 ∧ HostMove.reset ∉ s.inbox ∧ ∃ t, Host.Core.run Sys2Proof.core 2 s = .next t :=
  ⟨by decide, by decide, next_of_answers (Host.Core.run Sys2Proof.core 2 _) (by decide)⟩

theorem witness_LutvIsSetByLutbuildAndClearedByReset :
    (∃ t, step { unbuilt with inbox := [.command 0x50000000] } = .next t) ∧
    (∃ t, step { ready with inbox := [.reset] } = .next t) ∧ (∃ t, step ready = .next t) :=
  ⟨next_of_answers _ (by decide), next_of_answers _ (by decide), next_of_answers _ (by decide)⟩

/-- For each piece of state a command that changes it. -/
theorem witness_CommandsWriteOnlyTheirState :
    (after (exec (.wr .rgb 5) State.reset)).rgb ≠ State.reset.rgb ∧
    (after (exec .hsv2rgb { State.reset with hsv := 0x0000FF })).rgb ≠ State.reset.rgb ∧
    (after (exec .rgb2hsv { State.reset with rgb := 0xFFFFFF })).hsv ≠ State.reset.hsv ∧
    (after (exec (.wr .tint 5) State.reset)).tint ≠ State.reset.tint ∧
    (after (exec (.wr .width 5) State.reset)).width ≠ State.reset.width ∧
    (after (exec (.wr .height 5) State.reset)).height ≠ State.reset.height ∧
    (after (exec (.wr .row 5) State.reset)).row ≠ State.reset.row ∧
    (after (exec .alpha ready)).alpha ≠ ready.alpha ∧
    (after (exec (.rd .height) ready)).rsp ≠ ready.rsp ∧
    (after (exec .lutbuild unbuilt)).lutv ≠ unbuilt.lutv ∧
    (after (exec .xform unbuilt)).err ≠ unbuilt.err := by decide

theorem witness_CommandsWriteOnlyTheirState_memory :
    (after (exec .lutbuild unbuilt)).lut ≠ unbuilt.lut ∧ (after (exec .xform ready)).pix ≠ ready.pix := by decide +kernel

theorem witness_RaiseErrorWritesOnlyErr :
    ∃ t, exec .xform unbuilt = .next t ∧ t.err ≠ unbuilt.err :=
  ⟨_, eq_next_after _ (by decide), by decide⟩

/-- Each premise at the boundary of its range. -/
theorem witness_ErrorsAreRaisedInPriorityOrder :
    dimError.err ≠ 0 ∧ decode 0x8FFFFFFF = .error .reservedOpcode ∧
    (let s : State := { State.reset with height := 2, row := 9 }
     s.err = 0 ∧ s.height.toNat < 3) ∧
    (let s : State := { State.reset with height := 3, row := 3 }
     s.err = 0 ∧ 3 ≤ s.height.toNat ∧ s.height.toNat ≤ s.row.toNat) ∧
    (let s : State := { State.reset with height := 3, width := 0 }
     s.err = 0 ∧ (s.height.toNat < 3 ∨ s.width.toNat = 0)) ∧
    (let s : State := { State.reset with height := 3, width := 1 }
     s.err = 0 ∧ 3 ≤ s.height.toNat ∧ 1 ≤ s.width.toNat ∧ s.lutv = false) ∧
    (let s : State := { ready with pixBytes := 23 }
     s.err = 0 ∧ 3 ≤ s.height.toNat ∧ 1 ≤ s.width.toNat ∧ s.lutv = true ∧
       s.pixBytes < 4 * s.width.toNat * s.height.toNat) := by decide

theorem witness_WrWritesTheNamedRegister : State.reset.err = 0 ∧ (0xFFFF : Packed).toNat < 65536 := by decide

theorem witness_WrWordsWriteTheirRegister :
    (State.reset.err = 0 ∧ ((2 : Nat) ≤ 2 ∨ (2 : Nat) ≤ 5 ∧ (16777215 : Nat) < 65536)) ∧
    ((5 : Nat) ≤ 2 ∨ (5 : Nat) ≤ 5 ∧ (65535 : Nat) < 65536) ∧
    ¬ ((3 : Nat) ≤ 2 ∨ (3 : Nat) ≤ 5 ∧ (65536 : Nat) < 65536) ∧
    ¬ ((6 : Nat) ≤ 2 ∨ (6 : Nat) ≤ 5 ∧ (0 : Nat) < 65536) ∧ dimError.err ≠ 0 := by decide

theorem witness_RdWordsReadTheirRegister :
    ((8 : Nat) ≤ 8 ∨ (0 : Nat) ≠ 0) ∧ ((8 : Nat) ≤ 7 ∨ (1 : Nat) ≠ 0) ∧
    dimError.err = 2 ∧ dimError.lutv = false ∧ ∃ t, runCommand 0x27000000 dimError = .next t :=
  ⟨by decide, by decide, by decide, by decide, next_of_answers _ (by decide)⟩

theorem witness_WrThenRdReturnsTheValue :
    State.reset.err = 0 ∧ (Instr.wr .row 0xFFFF).wellFormed = true ∧ (Instr.wr .tint 0xFFFFFF).wellFormed = true := by decide

theorem witness_Rgb2hsvWritesHsv : ready.err = 0 ∧ dimError.err ≠ 0 := by decide

/-- A black, a gray, and a colour of each hue branch; the last two also of RgbToHsvHuesLieInTheirSectors. -/
theorem witness_RgbToHsvFollowsItsFormula :
    (rgbToHsv ⟨0, 0, 0⟩).s = 0 ∧ (rgbToHsv ⟨255, 255, 255⟩).s = 0 ∧ (rgbToHsv ⟨255, 254, 254⟩).s ≠ 0 ∧
    (rgbToHsv ⟨20, 30, 10⟩).s ≠ 0 ∧ (rgbToHsv ⟨10, 20, 30⟩).s ≠ 0 := by decide

/-- For each branch a colour whose maximum is that channel alone; (255, 254, 254) has s below 255, (0, 255, 0) has s = 255. -/
theorem witness_RgbToHsvHuesLieInTheirSectors :
    (max 255 (max 254 254) ≠ min 255 (min 254 254) ∧ (255 : Byte).toNat = max 255 (max 254 254)) ∧
    (max 0 (max 255 0) ≠ min 0 (min 255 0) ∧ (0 : Byte).toNat ≠ max 0 (max 255 0) ∧
      (255 : Byte).toNat = max 0 (max 255 0)) ∧
    (max 254 (max 0 255) ≠ min 254 (min 0 255) ∧ (254 : Byte).toNat ≠ max 254 (max 0 255) ∧
      (0 : Byte).toNat ≠ max 254 (max 0 255)) := by decide

theorem witness_Hsv2rgbWritesRgb : ready.err = 0 ∧ dimError.err ≠ 0 := by decide

theorem witness_HsvToRgbFollowsItsFormula : (0 : Byte).toNat = 0 ∧ (1 : Byte).toNat ≠ 0 ∧ (255 : Byte).toNat ≠ 0 := by decide

theorem witness_HsvToRgbChannelsAreBounded : (1 : Byte) ≠ 0 ∧ (rgbToHsv ⟨128, 128, 128⟩).s = 0 := by decide

theorem witness_LutbuildWritesTheTable :
    unbuilt.err = 0 ∧ dimError.err ≠ 0 ∧ 1023 < 1024 ∧ (4095 % 4 = 3 ∨ 4096 ≤ 4095) ∧ (4096 % 4 = 3 ∨ 4096 ≤ 4096) := by
  decide

theorem witness_TableRisesWithBrightness :
    (2 : Nat) < 3 ∧ (898 : Nat) ≤ 1023 ∧ (1023 : Nat) < 1024 ∧ (898 : Nat) ≤ 898 ∧ ((2 : Nat) + 2) / 4 = (5 + 2) / 4 := by
  decide

theorem witness_SecondLutbuildReplacesTheFirst : unbuilt.err = 0 ∧ ∃ t, exec .lutbuild unbuilt = .next t :=
  ⟨by decide, next_of_answers _ (by decide)⟩

theorem witness_LutbuildEqualsItsLoopInAnyOrder :
    unbuilt.err = 0 ∧ Memory.wf unbuilt.lut ∧ (List.range 1024).reverse.Perm (List.range 1024) :=
  ⟨by decide, List.Pairwise.nil, List.reverse_perm _⟩

/-- A state for each of the four premises, at the boundary of its range. -/
theorem witness_AlphaWritesTheBandValue :
    dimError.err ≠ 0 ∧
    (let s : State := { State.reset with height := 2 }
     s.err = 0 ∧ s.height.toNat < 3) ∧
    (let s : State := { State.reset with height := 3, row := 3 }
     s.err = 0 ∧ 3 ≤ s.height.toNat ∧ s.height.toNat ≤ s.row.toNat) ∧
    (let s : State := { State.reset with height := 3, row := 2 }
     s.err = 0 ∧ 3 ≤ s.height.toNat ∧ s.row.toNat < s.height.toNat) ∧
    (let s : State := { State.reset with height := 65535, row := 65534 }
     s.err = 0 ∧ s.height = 65535 ∧ s.row = 65534) ∧
    (let s : State := { State.reset with height := 1136, row := 377 }
     s.err = 0 ∧ s.height = 1136 ∧ s.row = 377) := by decide

/-- Height 8: row 0 and row 1 of band 1, row 5 the first of band 3, row 7 the last. -/
theorem witness_AlphaGradientIsMonotoneInItsBands :
    (3 : Nat) ≤ 8 ∧ (7 : Nat) < 8 ∧ (1 : Nat) < 8 / 3 ∧ (0 : Nat) ≤ 1 ∧ 8 / 3 ≤ (5 : Nat) ∧ 5 ≤ 2 * 8 / 3 ∧
    (5 : Nat) ≤ 7 ∧ (3 : Nat) ≤ 3 ∧ (2 : Nat) < 3 := by decide

theorem ready_xformReady : ready.xformReady := by
  refine ⟨by decide, by decide, by decide, by decide, ?_⟩
  decide

theorem ready_lut : ready.lut = tableCells 0xFF0000 := by rw [ready]

theorem inv_with_inbox (s : State) (moves : List HostMove) (h : s.Inv) : ({ s with inbox := moves } : State).Inv :=
  ⟨h.1, h.2, h.3, h.4, h.5, h.6, h.7⟩

theorem ready_inv (moves : List HostMove) : ({ ready with inbox := moves } : State).Inv := by
  have h3 : ready.lutv = true := by decide
  refine inv_with_inbox ready moves ⟨by decide, by decide, ?_, fun _ => ⟨0xFF0000, ready_lut⟩, by decide, by decide, by decide⟩
  rw [h3]; decide

/-- The premises of the four refusals and of the success, at the boundary of their ranges. -/
theorem witness_XformTransformsEveryPixel :
    dimError.err ≠ 0 ∧
    (let s : State := { ready with height := 2 }
     s.err = 0 ∧ (s.height.toNat < 3 ∨ s.width.toNat = 0)) ∧
    (let s : State := { ready with width := 0 }
     s.err = 0 ∧ (s.height.toNat < 3 ∨ s.width.toNat = 0)) ∧
    (unbuilt.err = 0 ∧ 3 ≤ unbuilt.height.toNat ∧ 1 ≤ unbuilt.width.toNat ∧ unbuilt.lutv = false) ∧
    (let s : State := { ready with pixBytes := 23 }
     s.err = 0 ∧ s.lutv = true ∧ s.pixBytes < 4 * s.width.toNat * s.height.toNat) ∧
    (let s : State := { ready with pixBytes := 24 }
     s.err = 0 ∧ 3 ≤ s.height.toNat ∧ 1 ≤ s.width.toNat ∧ s.lutv = true ∧
       4 * s.width.toNat * s.height.toNat ≤ s.pixBytes) := by decide

/-- Vector X9 of 95_test_vectors.md: offset 0 of the last pixel is 0xEE or was never written. -/
theorem witness_XformIgnoresOffsetZero :
    let s' : State := { ready with pix := ready.pix.write 20 0xEE }
    ready.xformReady ∧ s' = { ready with pix := s'.pix } ∧ s'.pix ≠ ready.pix ∧
      (∀ a, a % 4 ≠ 0 → ready.memRead a = s'.memRead a) := by
  refine ⟨ready_xformReady, rfl, by decide, ?_⟩
  intro a ha
  have hne : a ≠ 20 := by omega
  simp only [State.memRead]
  rw [Memory.read_write, if_neg hne]

theorem with_lut (s : State) (m : Memory) : ({ s with lut := m } : State) = { s with lut := ({ s with lut := m } : State).lut } :=
  rfl

theorem witness_XformReadsOnlyReachableSlots :
    let s' : State := { ready with lut := ready.lut.write 4095 7 }
    ready.xformReady ∧ s' = { ready with lut := s'.lut } ∧
      (∀ a, a ≤ 3314 → a % 4 ≠ 3 → ready.lut.read a = s'.lut.read a) ∧ ∃ t, exec .xform ready = .next t := by
  refine ⟨ready_xformReady, with_lut ready _, ?_, next_of_answers _ (by decide)⟩
  intro a ha _
  have hne : a ≠ 4095 := by omega
  simp only []
  rw [Memory.read_write, if_neg hne]

theorem witness_XformEqualsItsLoopInAnyOrder :
    ready.xformReady ∧ Memory.wf ready.pix ∧
      (rowMajor ready.width.toNat ready.height.toNat).reverse.Perm (rowMajor ready.width.toNat ready.height.toNat) :=
  ⟨ready_xformReady, by decide, List.reverse_perm _⟩

theorem witness_XformAfterLutbuildTintsByBrightness :
    unbuilt.err = 0 ∧ ∃ t, exec .lutbuild unbuilt = .next t ∧ t.xformReady := by
  refine ⟨by decide, _, rfl, by decide, by decide, by decide, by decide, by decide⟩

theorem witness_NoOutputPixelIsBlack :
    ({ ready with inbox := [] } : State).Inv ∧ ready.xformReady ∧ (∃ t, exec .xform ready = .next t) ∧ 1 < ready.width.toNat ∧ 2 < ready.height.toNat :=
  ⟨ready_inv [], ready_xformReady, next_of_answers _ (by decide), by decide, by decide⟩

theorem witness_SecondXformIsAccepted : ready.xformReady ∧ ∃ t, exec .xform ready = .next t :=
  ⟨ready_xformReady, next_of_answers _ (by decide)⟩

/-- The last byte that exists, written and read. -/
theorem witness_HostAccessesPixByteByByte :
    ({ ready with inbox := [.pixWrite 31 9] } : State).inbox = .pixWrite 31 9 :: [] ∧ 31 < ready.pixBytes ∧
    ({ ready with inbox := [.pixRead 31] } : State).inbox = .pixRead 31 :: [] := by decide

/-- The last written byte of the table, and the padding byte after it (program P7, steps 7 and 5). -/
theorem witness_HostReadsTheTable :
    ready.lut.read 4094 = some 73 ∧ ready.lut.read 4095 = none ∧
    ({ ready with inbox := [.lutRead 4095] } : State).inbox = .lutRead 4095 :: [] := by decide +kernel

/-- The first byte of PIX and of LUT that does not exist. -/
theorem witness_OnlyAbsentBytesFault :
    step { ready with inbox := [.pixWrite 32 0] } = .fault (.pixAbsent 32) ∧
    step { ready with inbox := [.pixRead 32] } = .fault (.pixAbsent 32) ∧
    step { ready with inbox := [.lutRead 4096] } = .fault (.lutAbsent 4096) := ⟨rfl, rfl, rfl⟩

theorem witness_DutifulHostIsAlwaysServed :
    ({ ready with inbox := [.pixRead 31, .lutRead 4095, .reset, .command 0] } : State).hostDutiful := by
  intro m hm
  simp only [List.mem_cons, List.not_mem_nil, or_false] at hm
  rcases hm with rfl | rfl | rfl | rfl <;> decide

/-- A state before a command, one before a reset. -/
theorem witness_StepKeepsTheInvariant :
    ({ ready with inbox := [.command 0x70000000] } : State).Inv ∧
    (∃ t, step { ready with inbox := [.command 0x70000000] } = .next t) ∧
    ({ ready with inbox := [.reset] } : State).Inv ∧ (∃ t, step { ready with inbox := [.reset] } = .next t) :=
  ⟨ready_inv _, next_of_answers _ (by decide), ready_inv _, next_of_answers _ (by decide)⟩

/-- The least and the largest PIX_BYTES. -/
theorem witness_ResetMeetsTheInvariant : 0 ≤ 2 ^ 34 ∧ Config.maxPixBytes ≤ 2 ^ 34 := by decide

/-- Two surroundings that differ in everything but PIX_BYTES, and for the other commands in PIX_BYTES too. -/
theorem witness_CommandsAreFunctionsOfTheCoreState :
    let e : Surroundings := { pixBytes := 32, inbox := [.reset], hostData := 7, draws := 9 }
    let s : State := { ready with inbox := [] }
    let s' : State := { s with toSurroundings := e }
    let s'' : State := { s with toSurroundings := { e with pixBytes := 16 } }
    s.Inv ∧ s'.toCoreState = s.toCoreState ∧ s'.toSurroundings ≠ s.toSurroundings ∧
      (Instr.xform = .xform → s'.pixBytes = s.pixBytes) ∧ s''.toCoreState = s.toCoreState ∧
      (Instr.lutbuild = .xform → s''.pixBytes = s.pixBytes) :=
  ⟨ready_inv [], rfl, by decide, fun _ => by decide, rfl, nofun⟩

/-- PIX_BYTES as in program P2 of 95_test_vectors.md, the last byte that exists written and read. -/
theorem witness_RunsFromResetAreServed :
    32 ≤ 2 ^ 34 ∧
    ∀ m ∈ ([.pixWrite 31 0x5A, .command 0x50000000, .lutRead 4095, .pixRead 31] : List HostMove), m.inRange 32 = true := by
  decide

end Sys2Proof.Tests
end

section
/-! PROOFS. The statements about the state (10_state.md). What a command can do is said once, by exec_cases over
State.effectOf, and what a move of the host can do by runMove_cases; the invariant, the frames and the runs rest on these. -/

namespace Sys2Proof.Machine

/-! ### What a decoded word is (30_encoding.md R53, R58) -/

theorem decodeWr_ok {n : BitVec 4} {imm : Packed} {i : Instr} (h : decodeWr n imm = .ok i) :
    ∃ r, regNumber r = n ∧ i = .wr r imm := by
  rw [decodeWr] at h
  split at h
  · cases h
  · next r hr =>
    split at h
    · cases h
    · split at h
      · cases h
      · cases h; exact ⟨r, regNumber_of_regOfNumber n r hr, rfl⟩

theorem decodeRd_ok {n : BitVec 4} {imm : Packed} {i : Instr} (h : decodeRd n imm = .ok i) :
    ∃ r, regNumber r = n ∧ imm = 0 ∧ i = .rd r := by
  rw [decodeRd] at h
  split at h
  · cases h
  · next r hr =>
    split at h
    · next h0 => cases h; exact ⟨r, regNumber_of_regOfNumber n r hr, h0, rfl⟩
    · cases h

theorem decodePlain_ok {i j : Instr} {n : BitVec 4} {imm : Packed} (h : decodePlain j n imm = .ok i) :
    n = 0 ∧ imm = 0 ∧ i = j := by
  rw [decodePlain] at h
  split at h
  · next h0 => cases h; exact ⟨h0.1, h0.2, rfl⟩
  · cases h

/-- A word is assembled from what its three fields are found to be (30_encoding.md R51). -/
theorem formatC_of_fields {w : Word} {op reg : BitVec 4} {imm : Packed} (ho : (opField w).toNat = op.toNat)
    (hr : regField w = reg) (hi : immField w = imm) : formatC op reg imm = w := by
  rw [← formatC_fields w, BitVec.eq_of_toNat_eq ho, hr, hi]

/-- The word of a command that uses neither REG nor IMM. -/
theorem encode_of_decodePlain {w : Word} {i j : Instr} {op : BitVec 4} (he : encode j = formatC op 0 0)
    (ho : (opField w).toNat = op.toNat) (h : decodePlain j (regField w) (immField w) = .ok i) : encode i = w := by
  obtain ⟨hr, hi, rfl⟩ := decodePlain_ok h
  rw [he, formatC_of_fields ho hr hi]

/-- The word that decodes to a command is its encoding (30_encoding.md R55, R56). -/
theorem encode_of_decode {w : Word} {i : Instr} (h : decode w = .ok i) : encode i = w := by
  rw [decode] at h
  split at h
  · next ho =>
    obtain ⟨r, hr, rfl⟩ := decodeWr_ok h
    exact formatC_of_fields ho hr.symm rfl
  · next ho =>
    obtain ⟨r, hr, hi, rfl⟩ := decodeRd_ok h
    exact formatC_of_fields ho hr.symm hi
  · next ho => exact encode_of_decodePlain (op := 3) rfl ho h
  · next ho => exact encode_of_decodePlain (op := 4) rfl ho h
  · next ho => exact encode_of_decodePlain (op := 5) rfl ho h
  · next ho => exact encode_of_decodePlain (op := 6) rfl ho h
  · next ho => exact encode_of_decodePlain (op := 7) rfl ho h
  · cases h

/-- 0x50000000 is the one word of LUTBUILD (30_encoding.md R53). -/
theorem decode_eq_lutbuild_iff (w : Word) : decode w = .ok .lutbuild ↔ w = 0x50000000 :=
  ⟨fun h => (encode_of_decode h).symm, fun h => h ▸ (by decide : decode 0x50000000 = .ok .lutbuild)⟩

/-! ### What a command does when it has its effect -/

/-- The state a command leaves when it is neither refused nor, in the error state, without effect. -/
def State.effectOf (s : State) : Instr → State
  | .wr reg imm => s.writeReg reg imm
  | .rd reg => { s with rsp := s.readReg reg }
  | .rgb2hsv => { s with hsv := packHsv (rgbToHsv (unpackRgb s.rgb)) }
  | .hsv2rgb => { s with rgb := packRgb (hsvToRgb (unpackHsv s.hsv)) }
  | .lutbuild => { s with lut := lutBuild s.tint s.lut }.setLutv
  | .alpha => { s with alpha := BitVec.ofNat 8 (alphaAt s.row.toNat s.height.toNat) }
  | .xform => { s with pix := s.pix.fillBelow (bufferBytes s) (xformByte s) }

/-- The commands that can raise an error (60_exceptions.md R103). -/
def canRaise : Instr → Bool
  | .wr _ _ | .alpha | .xform => true
  | .rd _ | .rgb2hsv | .hsv2rgb | .lutbuild => false

/-- A command that can raise an error is none of the four that raise none (60_exceptions.md R103). -/
theorem ne_of_canRaise {i : Instr} (h : canRaise i = true) :
    i ≠ .lutbuild ∧ i ≠ .rgb2hsv ∧ i ≠ .hsv2rgb ∧ ∀ r, i ≠ .rd r := by
  cases i <;> simp [canRaise] at h ⊢

/-- Everything a command can do: nothing, in the error state; raise an error; or have its effect (30_encoding.md R59). -/
theorem exec_cases {i : Instr} {s t : State} (h : exec i s = .next t) :
    (s.err ≠ 0 ∧ t = s) ∨
    (s.err = 0 ∧ canRaise i = true ∧ ∃ e : ErrorCode, t = s.setErr e.code) ∨
    ((s.err = 0 ∨ ∃ r, i = .rd r) ∧ (i = .xform → bufferBytes s ≤ s.pixBytes) ∧ t = s.effectOf i) := by
  cases i with
  | wr reg imm =>
    rcases execWr_cases h with h | ⟨he, -, rfl⟩ | ⟨he, -, rfl⟩
    · exact .inl h
    · exact .inr (.inr ⟨.inl he, nofun, rfl⟩)
    · exact .inr (.inl ⟨he, rfl, .illegal, rfl⟩)
  | rd reg => cases h; exact .inr (.inr ⟨.inr ⟨reg, rfl⟩, nofun, rfl⟩)
  | rgb2hsv | hsv2rgb | lutbuild =>
    rcases unlessError_cases h with h | ⟨he, h⟩
    · exact .inl h
    · cases h; exact .inr (.inr ⟨.inl he, nofun, rfl⟩)
  | alpha =>
    rcases execAlpha_cases h with h | ⟨he, -, rfl⟩ | ⟨he, -, -, rfl⟩ | ⟨he, -, -, rfl⟩
    · exact .inl h
    · exact .inr (.inl ⟨he, rfl, .dim, rfl⟩)
    · exact .inr (.inl ⟨he, rfl, .row, rfl⟩)
    · exact .inr (.inr ⟨.inl he, nofun, rfl⟩)
  | xform =>
    rcases execXform_cases h with h | ⟨he, -, rfl⟩ | ⟨he, -, -, rfl⟩ | ⟨he, -, -, -, rfl⟩ | ⟨he, -, -, hb, rfl⟩
    · exact .inl h
    · exact .inr (.inl ⟨he, rfl, .dim, rfl⟩)
    · exact .inr (.inl ⟨he, rfl, .nolut, rfl⟩)
    · exact .inr (.inl ⟨he, rfl, .range, rfl⟩)
    · exact .inr (.inr ⟨.inl he, fun _ => hb, rfl⟩)

/-- A WR can change the six writable registers only (10_state.md R10, 30_encoding.md R54). -/
theorem State.writeReg_frame (s : State) (reg : Reg) (imm : Packed) :
    s.writeReg reg imm = { s with
      rgb := (s.writeReg reg imm).rgb, hsv := (s.writeReg reg imm).hsv, tint := (s.writeReg reg imm).tint,
      width := (s.writeReg reg imm).width, height := (s.writeReg reg imm).height, row := (s.writeReg reg imm).row } := by
  cases reg <;> rfl

@[simp] theorem State.effectOf_toSurroundings (s : State) (i : Instr) :
    (s.effectOf i).toSurroundings = s.toSurroundings := by
  cases i with
  | wr reg imm => rw [State.effectOf, s.writeReg_frame]
  | rd | rgb2hsv | hsv2rgb | lutbuild | alpha | xform => rfl

theorem State.effectOf_status (s : State) (i : Instr) (h : i ≠ .lutbuild) : (s.effectOf i).status = s.status := by
  cases i with
  | wr reg imm => rw [State.effectOf, s.writeReg_frame]
  | rd | rgb2hsv | hsv2rgb | alpha | xform => rfl
  | lutbuild => exact absurd rfl h

/-- ERR is a field of STATUS. -/
theorem State.err_congr {s t : State} (h : t.status = s.status) : t.err = s.err := by
  rw [State.err_def, State.err_def, h]

/-- LUTV is a field of STATUS. -/
theorem State.lutv_congr {s t : State} (h : t.status = s.status) : t.lutv = s.lutv := by
  rw [State.lutv_def, State.lutv_def, h]

@[simp] theorem State.effectOf_err (s : State) (i : Instr) : (s.effectOf i).err = s.err := by
  by_cases h : i = .lutbuild
  · subst h; exact State.err_setLutv _
  · exact State.err_congr (s.effectOf_status i h)

theorem State.effectOf_lutv (s : State) (i : Instr) : (s.effectOf i).lutv = (s.lutv || decide (i = .lutbuild)) := by
  by_cases h : i = .lutbuild
  · subst h; simp [State.effectOf]
  · simp [State.lutv_congr (s.effectOf_status i h), h]

/-- No command changes what stands beside the core (10_state.md R27). -/
theorem exec_toSurroundings {i : Instr} {s t : State} (h : exec i s = .next t) : t.toSurroundings = s.toSurroundings := by
  rcases exec_cases h with ⟨-, rfl⟩ | ⟨-, -, e, rfl⟩ | ⟨-, -, rfl⟩ <;> simp

/-- LUTV after a command (10_state.md R21). -/
theorem exec_lutv {i : Instr} {s t : State} (h : exec i s = .next t) :
    t.lutv = (s.lutv || (decide (s.err = 0) && decide (i = .lutbuild))) := by
  rcases exec_cases h with ⟨he, rfl⟩ | ⟨-, hr, e, rfl⟩ | ⟨he | ⟨r, rfl⟩, -, rfl⟩
  · rw [decide_eq_false he, Bool.false_and, Bool.or_false]
  · have hi : i ≠ .lutbuild := by rintro rfl; cases hr
    simp [hi]
  · simp [State.effectOf_lutv, he]
  · simp [State.effectOf_lutv]

/-! ### What one move of the host does -/

theorem runCommand_toSurroundings {w : Word} {s t : State} (h : runCommand w s = .next t) :
    t.toSurroundings = s.toSurroundings := by
  rcases runCommand_cases h with ⟨i, -, h⟩ | ⟨e, -, -, rfl⟩ | ⟨e, -, -, rfl⟩
  · exact exec_toSurroundings h
  · rfl
  · rfl

/-- LUTV after a command word (10_state.md R21). -/
theorem runCommand_lutv {w : Word} {s t : State} (h : runCommand w s = .next t) :
    t.lutv = (s.lutv || (decide (s.err = 0) && decide (w = 0x50000000))) := by
  have hw := decode_eq_lutbuild_iff w
  rcases runCommand_cases h with ⟨i, hi, h⟩ | ⟨e, hd, -, rfl⟩ | ⟨e, hd, -, rfl⟩
  · rw [hi, Except.ok.injEq] at hw
    rw [exec_lutv h, decide_eq_decide.mpr hw]
  · have hn : w ≠ 0x50000000 := by rw [Ne, ← hw, hd]; nofun
    rw [decide_eq_false hn, Bool.and_false, Bool.or_false]
  · have hn : w ≠ 0x50000000 := by rw [Ne, ← hw, hd]; nofun
    rw [decide_eq_false hn, Bool.and_false, Bool.or_false, State.lutv_setErr]

/-- Everything a move of the host can do: run a command word, reset the core, or access a memory (20_memory.md R41). -/
theorem runMove_cases {m : HostMove} {s t : State} (h : runMove m s = .next t) :
    (∃ w, m = .command w ∧ runCommand w s = .next t) ∨
    (m = .reset ∧ t = s.resetCore) ∨
    ((∀ w, m ≠ .command w) ∧ m ≠ .reset ∧ t = { s with pix := t.pix, hostData := t.hostData, draws := t.draws }) := by
  cases m with
  | command w => exact .inl ⟨w, rfl, h⟩
  | reset => cases h; exact .inr (.inl ⟨rfl, rfl⟩)
  | pixWrite a v => obtain ⟨-, rfl⟩ := hostPixWrite_cases h; exact .inr (.inr ⟨nofun, nofun, rfl⟩)
  | pixRead a => obtain ⟨-, rfl⟩ := hostPixRead_cases h; exact .inr (.inr ⟨nofun, nofun, rfl⟩)
  | lutRead a =>
    obtain ⟨-, ⟨v, -, rfl⟩ | ⟨-, rfl⟩⟩ := hostLutRead_cases h
    · exact .inr (.inr ⟨nofun, nofun, rfl⟩)
    · exact .inr (.inr ⟨nofun, nofun, rfl⟩)

/-- No move changes the arguments of the run (10_state.md R27). -/
theorem runMove_arguments {m : HostMove} {s t : State} (h : runMove m s = .next t) :
    t.pixBytes = s.pixBytes ∧ t.inbox = s.inbox := by
  rcases runMove_cases h with ⟨w, -, h⟩ | ⟨-, rfl⟩ | ⟨-, -, ht⟩
  · have hs := runCommand_toSurroundings h
    exact ⟨congrArg (·.pixBytes) hs, congrArg (·.inbox) hs⟩
  · exact ⟨rfl, rfl⟩
  · rw [ht]; exact ⟨rfl, rfl⟩

/-- A step keeps PIX_BYTES and takes one move from the inbox (log entry 2). -/
theorem step_arguments {s t : State} (h : step s = .next t) : t.pixBytes = s.pixBytes ∧ t.inbox = s.inbox.tail := by
  rcases step_cases h with ⟨hi, rfl⟩ | ⟨m, rest, hi, h⟩
  · simp [hi]
  · obtain ⟨hp, hr⟩ := runMove_arguments h
    exact ⟨hp, by rw [hr, hi]; rfl⟩

/-! ### Totality: only a host access to an absent byte stops the machine -/

theorem answers_ite {p : Prop} [Decidable p] {a b : Host.Outcome State Fault Refusal} (ha : ∃ t, a = .next t)
    (hb : ∃ t, b = .next t) : ∃ t, (if p then a else b) = .next t := by
  split
  · exact ha
  · exact hb

theorem unlessError_answers (s : State) {run : Host.Outcome State Fault Refusal} (h : ∃ t, run = .next t) :
    ∃ t, unlessError s run = .next t :=
  answers_ite h ⟨s, rfl⟩

/-- Every command answers a next state, in every state (60_exceptions.md R102). -/
theorem exec_answers (i : Instr) (s : State) : ∃ t, exec i s = .next t := by
  cases i with
  | wr reg imm => exact unlessError_answers s (answers_ite ⟨_, rfl⟩ ⟨_, rfl⟩)
  | rd reg => exact ⟨_, rfl⟩
  | rgb2hsv | hsv2rgb | lutbuild => exact unlessError_answers s ⟨_, rfl⟩
  | alpha => exact unlessError_answers s (answers_ite ⟨_, rfl⟩ (answers_ite ⟨_, rfl⟩ ⟨_, rfl⟩))
  | xform =>
    exact unlessError_answers s (answers_ite ⟨_, rfl⟩ (answers_ite ⟨_, rfl⟩ (answers_ite ⟨_, rfl⟩ ⟨_, rfl⟩)))

theorem runCommand_answers (w : Word) (s : State) : ∃ t, runCommand w s = .next t := by
  rw [runCommand]
  split
  · exact exec_answers _ s
  · exact unlessError_answers s ⟨_, rfl⟩

/-- A move that touches only bytes that exist is served (20_memory.md R33, R37). -/
theorem runMove_answers {m : HostMove} {s : State} (h : m.inRange s.pixBytes = true) : ∃ t, runMove m s = .next t := by
  cases m with
  | command w => exact runCommand_answers w s
  | reset => exact ⟨_, rfl⟩
  | pixWrite a v => exact ⟨_, if_pos (of_decide_eq_true h)⟩
  | pixRead a => exact ⟨_, if_pos (of_decide_eq_true h)⟩
  | lutRead a =>
    rw [runMove, hostLutRead, if_pos (of_decide_eq_true h)]
    split <;> exact ⟨_, rfl⟩

theorem step_answers {s : State} (h : s.hostDutiful) : ∃ t, step s = .next t := by
  cases hi : s.inbox with
  | nil => exact ⟨s, by rw [step, serve, hi]⟩
  | cons m rest =>
    rw [step_of_inbox s m rest hi]
    exact runMove_answers (h m (by simp [hi]))

/-- A served host stays dutiful. -/
theorem step_keeps_hostDutiful {s t : State} (hd : s.hostDutiful) (h : step s = .next t) : t.hostDutiful := by
  obtain ⟨hp, hi⟩ := step_arguments h
  intro m hm
  rw [hi] at hm
  rw [hp]
  exact hd m (List.mem_of_mem_tail hm)

/-! ### The invariant (10_state.md R18, R21, R24; 60_exceptions.md R103; 20_memory.md R37) -/

/-- The invariant speaks of STATUS, the two memories and PIX_BYTES only. -/
theorem State.Inv.congr {s t : State} (h : s.Inv) (hs : t.status = s.status) (hl : t.lut = s.lut) (hp : t.pix = s.pix)
    (hb : t.pixBytes = s.pixBytes) : t.Inv where
  statusReserved := by rw [hs]; exact h.statusReserved
  errLegal := by rw [State.err_congr hs]; exact h.errLegal
  lutUnbuilt := by rw [State.lutv_congr hs, hl]; exact h.lutUnbuilt
  lutBuilt := by rw [State.lutv_congr hs, hl]; exact h.lutBuilt
  pixCanonical := by rw [hp]; exact h.pixCanonical
  pixInRange := by rw [hp, hb]; exact h.pixInRange
  pixBytesLegal := by rw [hb]; exact h.pixBytesLegal

/-- Raising an error keeps the invariant (60_exceptions.md R103, R111). -/
theorem State.Inv.setErr {s : State} (h : s.Inv) (e : ErrorCode) : (s.setErr e.code).Inv where
  statusReserved := statusWord_reserved _ _
  errLegal := by rw [State.err_setErr]; exact e.code_range.2
  lutUnbuilt := by rw [State.lutv_setErr]; exact h.lutUnbuilt
  lutBuilt := by rw [State.lutv_setErr]; exact h.lutBuilt
  pixCanonical := h.pixCanonical
  pixInRange := h.pixInRange
  pixBytesLegal := h.pixBytesLegal

/-- Another canonical PIX within PIX_BYTES keeps the invariant. -/
theorem State.Inv.with_pix {s : State} (h : s.Inv) {m : Memory} (hw : Memory.wf m) (hr : ∀ c ∈ m, c.1 < s.pixBytes) :
    ({ s with pix := m } : State).Inv :=
  ⟨h.statusReserved, h.errLegal, h.lutUnbuilt, h.lutBuilt, hw, hr, h.pixBytesLegal⟩

/-- The start of a run meets the invariant (10_state.md R26, R27). -/
theorem State.resetWith_inv {n : Nat} (moves : List HostMove) (h : n ≤ Config.maxPixBytes) :
    (State.resetWith n moves).Inv where
  statusReserved := (by decide : (0 : Byte).extractLsb' 1 3 = 0)
  errLegal := (by decide : ((0 : Byte).extractLsb' 4 4).toNat ≤ 5)
  lutUnbuilt _ := rfl
  lutBuilt hl := absurd hl (by decide : ¬ (0 : Byte).getLsbD 0 = true)
  pixCanonical := List.Pairwise.nil
  pixInRange := nofun
  pixBytesLegal := h

/-- The reset event keeps the invariant: it leaves the start of a run, but for PIX (70_reset_and_hazards.md R117). -/
theorem State.Inv.resetCore {s : State} (h : s.Inv) : s.resetCore.Inv :=
  ((State.resetWith_inv [] h.pixBytesLegal).with_pix h.pixCanonical h.pixInRange).congr rfl rfl rfl rfl

/-- In a state that meets the invariant LutBuild leaves exactly the table of its tint (41_lutbuild.md R78, 92 D29). -/
theorem State.Inv.lutBuild_lut {s : State} (h : s.Inv) (c : Packed) : lutBuild c s.lut = tableCells c := by
  cases hl : s.lutv with
  | false => rw [h.lutUnbuilt hl, lutBuild_nil]
  | true =>
    obtain ⟨d, hd⟩ := h.lutBuilt hl
    rw [hd, lutBuild_tableCells]

/-- LUTBUILD keeps the invariant (41_lutbuild.md R79). -/
theorem State.Inv.lutbuild {s : State} (h : s.Inv) : (s.effectOf .lutbuild).Inv where
  statusReserved := statusWord_reserved _ _
  errLegal := by rw [State.effectOf_err]; exact h.errLegal
  lutUnbuilt := by simp [State.effectOf_lutv]
  lutBuilt _ := ⟨s.tint, h.lutBuild_lut s.tint⟩
  pixCanonical := h.pixCanonical
  pixInRange := h.pixInRange
  pixBytesLegal := h.pixBytesLegal

/-- The effect of a command keeps the invariant; that of XFORM, when the buffer lies within PIX_BYTES. -/
theorem State.Inv.effectOf {s : State} (h : s.Inv) (i : Instr) (hx : i = .xform → bufferBytes s ≤ s.pixBytes) :
    (s.effectOf i).Inv := by
  cases i with
  | wr reg imm =>
    rw [State.effectOf, s.writeReg_frame]
    exact h.congr rfl rfl rfl rfl
  | rd | rgb2hsv | hsv2rgb | alpha => exact h.congr rfl rfl rfl rfl
  | lutbuild => exact h.lutbuild
  | xform =>
    refine h.with_pix (Memory.wf_fillBelow _ _ _ h.pixCanonical) fun c hc => ?_
    rcases Memory.mem_fillBelow _ _ _ c hc with hlt | hm
    · exact hlt.trans_le (hx rfl)
    · exact h.pixInRange c hm

theorem exec_keeps_inv {i : Instr} {s t : State} (hi : s.Inv) (h : exec i s = .next t) : t.Inv := by
  rcases exec_cases h with ⟨-, rfl⟩ | ⟨-, -, e, rfl⟩ | ⟨-, hx, rfl⟩
  · exact hi
  · exact hi.setErr e
  · exact hi.effectOf i hx

theorem runCommand_keeps_inv {w : Word} {s t : State} (hi : s.Inv) (h : runCommand w s = .next t) : t.Inv := by
  rcases runCommand_cases h with ⟨i, -, h⟩ | ⟨e, -, -, rfl⟩ | ⟨e, -, -, rfl⟩
  · exact exec_keeps_inv hi h
  · exact hi
  · exact hi.setErr .illegal

theorem runMove_keeps_inv {m : HostMove} {s t : State} (hi : s.Inv) (h : runMove m s = .next t) : t.Inv := by
  cases m with
  | command w => exact runCommand_keeps_inv hi h
  | reset => cases h; exact hi.resetCore
  | pixWrite a v =>
    obtain ⟨ha, rfl⟩ := hostPixWrite_cases h
    refine hi.with_pix (Memory.wf_write _ a v hi.pixCanonical) fun c hc => ?_
    rcases Memory.mem_write _ a v c hc with rfl | hm
    · exact ha
    · exact hi.pixInRange c hm
  | pixRead a => obtain ⟨-, rfl⟩ := hostPixRead_cases h; exact hi.congr rfl rfl rfl rfl
  | lutRead a =>
    obtain ⟨-, ⟨v, -, rfl⟩ | ⟨-, rfl⟩⟩ := hostLutRead_cases h
    · exact hi.congr rfl rfl rfl rfl
    · exact hi.congr rfl rfl rfl rfl

/-- Settles O47: a step waits or serves one move, and every move keeps the invariant. -/
theorem stepKeepsTheInvariant : Obligations.StepKeepsTheInvariant := by
  intro s t hi h
  rcases step_cases h with ⟨-, rfl⟩ | ⟨m, rest, -, h⟩
  · exact hi
  · exact runMove_keeps_inv (s := { s with inbox := rest }) (hi.congr rfl rfl rfl rfl) h

/-- Settles O46: State.reset is the start of a run too. -/
theorem resetMeetsTheInvariant : Obligations.ResetMeetsTheInvariant :=
  ⟨State.resetWith_inv [] le_rfl, fun _ moves h => State.resetWith_inv moves h⟩

/-! ### LUTV and the frame of the commands (10_state.md R10, R21) -/

/-- Settles O11: of the moves only reset and a command word touch STATUS. -/
theorem lutvIsSetByLutbuildAndClearedByReset : Obligations.LutvIsSetByLutbuildAndClearedByReset := by
  intro s t h
  rcases step_cases h with ⟨hi, rfl⟩ | ⟨m, rest, hi, h⟩
  · rw [hi]
  · rw [hi]
    cases m with
    | command w => exact runCommand_lutv (s := { s with inbox := rest }) h
    | reset => cases h; exact State.lutv_resetCore _
    | pixWrite a v => obtain ⟨-, rfl⟩ := hostPixWrite_cases h; rfl
    | pixRead a => obtain ⟨-, rfl⟩ := hostPixRead_cases h; rfl
    | lutRead a => obtain ⟨-, ⟨v, -, rfl⟩ | ⟨-, rfl⟩⟩ := hostLutRead_cases h <;> rfl

/-- Settles O12: each way a command can end is compared with the state before, and each effect is one update. -/
theorem commandsWriteOnlyTheirState : Obligations.CommandsWriteOnlyTheirState := by
  intro i s t h
  rcases exec_cases h with ⟨-, rfl⟩ | ⟨he, hr, e, rfl⟩ | ⟨-, -, rfl⟩
  · simp
  · obtain ⟨hl, hh, hr, hd⟩ := ne_of_canRaise hr
    exact ⟨absurd rfl, absurd rfl, absurd rfl, absurd rfl, absurd rfl, absurd rfl, absurd rfl, absurd rfl,
      absurd (State.lutv_setErr s _), fun _ => ⟨he, hl, hh, hr, hd, rfl⟩, absurd rfl, absurd rfl, rfl, rfl, rfl, rfl⟩
  · rw [State.effectOf_err, State.effectOf_lutv]
    cases i with
    | wr reg imm => cases reg <;> simp [State.effectOf, State.writeReg]
    | rd | rgb2hsv | hsv2rgb | lutbuild | alpha | xform => simp [State.effectOf]

/-! ### Runs -/

theorem run_succ_of_step {k : Nat} {s u : State} (h : step s = .next u) :
    Host.Core.run Sys2Proof.core (k + 1) s = Host.Core.run Sys2Proof.core k u := by
  have hc : Sys2Proof.core.step s = .next u := h
  simp only [Host.Core.run, hc]

/-- A run of one step more begins with a step that is served. -/
theorem run_succ_cases {k : Nat} {s t : State} (h : Host.Core.run Sys2Proof.core (k + 1) s = .next t) :
    ∃ u, step s = .next u ∧ Host.Core.run Sys2Proof.core k u = .next t := by
  simp only [Host.Core.run] at h
  split at h
  · next u hu => exact ⟨u, hu, h⟩
  · cases h
  · cases h

/-- What every step keeps, every run keeps. -/
theorem run_keeps {P : State → Prop} (hstep : ∀ s t : State, P s → step s = .next t → P t) {k : Nat} {s t : State}
    (hs : P s) (h : Host.Core.run Sys2Proof.core k s = .next t) : P t := by
  induction k generalizing s with
  | zero => cases h; exact hs
  | succ k ih =>
    obtain ⟨u, hu, h⟩ := run_succ_cases h
    exact ih (hstep s u hs hu) h

/-- A dutiful host is served at every step of the run, one move a step (70_reset_and_hazards.md R127; log entry 2). -/
theorem run_served (k : Nat) (s : State) (hi : s.Inv) (hd : s.hostDutiful) :
    ∃ t : State, Host.Core.run Sys2Proof.core k s = .next t ∧ t.Inv ∧ t.pixBytes = s.pixBytes ∧
      t.inbox = s.inbox.drop k := by
  induction k generalizing s with
  | zero => exact ⟨s, rfl, hi, rfl, rfl⟩
  | succ k ih =>
    obtain ⟨u, hu⟩ := step_answers hd
    obtain ⟨hup, hui⟩ := step_arguments hu
    obtain ⟨t, ht, hti, htp, htb⟩ := ih u (stepKeepsTheInvariant s u hi hu) (step_keeps_hostDutiful hd hu)
    exact ⟨t, by rw [run_succ_of_step hu, ht], hti, htp.trans hup, by rw [htb, hui, List.drop_tail]⟩

/-- Settles O49: the start of the run meets the invariant and its host is dutiful. -/
theorem runsFromResetAreServed : Obligations.RunsFromResetAreServed :=
  fun n moves k hn hm => run_served k (State.resetWith n moves) (State.resetWith_inv moves hn) hm

/-! ### The error state (60_exceptions.md R112) -/

/-- `t` is `s` but for RSP and what a host access to a memory changes. -/
def State.FrozenAs (t s : State) : Prop :=
  t = { s with rsp := t.rsp, pix := t.pix, inbox := t.inbox, hostData := t.hostData, draws := t.draws }

theorem State.FrozenAs.refl (s : State) : s.FrozenAs s := rfl

theorem State.FrozenAs.trans {s t u : State} (hu : u.FrozenAs t) (ht : t.FrozenAs s) : u.FrozenAs s := by
  rw [State.FrozenAs] at *
  rw [hu, ht]

theorem State.FrozenAs.status {s t : State} (h : t.FrozenAs s) : t.status = s.status := by rw [h]

/-- In the error state an RD writes RSP and every other command has no effect. -/
theorem exec_frozen {i : Instr} {s t : State} (he : s.err ≠ 0) (h : exec i s = .next t) : t.FrozenAs s := by
  rcases exec_cases h with ⟨-, rfl⟩ | ⟨h0, -⟩ | ⟨h0 | ⟨r, rfl⟩, -, rfl⟩
  · rfl
  · exact absurd h0 he
  · exact absurd h0 he
  · rfl

theorem runCommand_frozen {w : Word} {s t : State} (he : s.err ≠ 0) (h : runCommand w s = .next t) : t.FrozenAs s := by
  rcases runCommand_cases h with ⟨i, -, h⟩ | ⟨e, -, -, rfl⟩ | ⟨e, -, h0, -⟩
  · exact exec_frozen he h
  · rfl
  · exact absurd h0 he

theorem runMove_frozen {m : HostMove} {s t : State} (he : s.err ≠ 0) (hm : m ≠ .reset) (h : runMove m s = .next t) :
    t.FrozenAs s := by
  rcases runMove_cases h with ⟨w, -, h⟩ | ⟨hr, -⟩ | ⟨-, -, ht⟩
  · exact runCommand_frozen he h
  · exact absurd hr hm
  · rw [ht]; rfl

theorem step_frozen {s t : State} (he : s.err ≠ 0) (hr : HostMove.reset ∉ s.inbox) (h : step s = .next t) :
    t.FrozenAs s := by
  rcases step_cases h with ⟨-, rfl⟩ | ⟨m, rest, hi, h⟩
  · rfl
  · have hm : m ≠ .reset := by rintro rfl; simp [hi] at hr
    exact (runMove_frozen (s := { s with inbox := rest }) he hm h).trans rfl

/-- Settles O10: every step of the run leaves the state frozen, and brings no reset into the inbox. -/
theorem errorStateFreezesTheRun : Obligations.ErrorStateFreezesTheRun := by
  intro k s t he hr h
  have hstep : ∀ u v : State, (u.FrozenAs s ∧ HostMove.reset ∉ u.inbox) → step u = .next v →
      v.FrozenAs s ∧ HostMove.reset ∉ v.inbox := by
    rintro u v ⟨hu, hur⟩ huv
    have heu : u.err ≠ 0 := by rwa [State.err_congr hu.status]
    refine ⟨(step_frozen heu hur huv).trans hu, ?_⟩
    rw [(step_arguments huv).2]
    exact fun hv => hur (List.mem_of_mem_tail hv)
  obtain ⟨ht, -⟩ := run_keeps hstep ⟨.refl s, hr⟩ h
  rw [ht]
  simp

/-! ### Commands as functions of the core's state (10_state.md R10, R23, R27) -/

/-- Two outcomes leave the same state of the core, each beside its own surroundings. -/
def SameCore (e e' : Surroundings) (o o' : Host.Outcome State Fault Refusal) : Prop :=
  ∃ d : CoreState, o = .next ⟨d, e⟩ ∧ o' = .next ⟨d, e'⟩

theorem SameCore.ite {e e' : Surroundings} {p q : Prop} [Decidable p] [Decidable q]
    {a a' b b' : Host.Outcome State Fault Refusal} (hpq : p ↔ q) (ha : p → SameCore e e' a a')
    (hb : ¬ p → SameCore e e' b b') : SameCore e e' (if p then a else b) (if q then a' else b') := by
  by_cases hp : p
  · rw [if_pos hp, if_pos (hpq.mp hp)]; exact ha hp
  · rw [if_neg hp, if_neg (mt hpq.mpr hp)]; exact hb hp

theorem SameCore.raiseError (c : CoreState) (e e' : Surroundings) (k : ErrorCode) :
    SameCore e e' (raiseError k ⟨c, e⟩) (raiseError k ⟨c, e'⟩) := ⟨_, rfl, rfl⟩

theorem SameCore.unlessError {c : CoreState} {e e' : Surroundings} {o o' : Host.Outcome State Fault Refusal}
    (h : SameCore e e' o o') : SameCore e e' (unlessError ⟨c, e⟩ o) (unlessError ⟨c, e'⟩ o') :=
  .ite Iff.rfl (fun _ => h) fun _ => ⟨c, rfl, rfl⟩

/-- In a state that meets the invariant, with LUTV = 1, the table holds every byte of its slots (10_state.md R21). -/
theorem State.Inv.lutByteAt_eq {s s' : State} (h : s.Inv) (hl : s.lutv = true) (hs : s'.lut = s.lut) {i ch : Nat}
    (hi : i < 1024) (hc : ch < 3) : s'.lutByteAt (lutAddr i ch) = s.lutByteAt (lutAddr i ch) := by
  obtain ⟨d, hd⟩ := h.lutBuilt hl
  have hr : s.lut.read (lutAddr i ch) = _ := hd ▸ read_tableCells d i ch hi hc
  rw [State.lutByteAt, State.lutByteAt, hs, hr, Option.getD_some, Option.getD_some]

/-- XFORM reads no free value of the draw counter in a state that meets the invariant (log entry 6). -/
theorem xformByte_eq {c : CoreState} {e : Surroundings} (e' : Surroundings) (h : (⟨c, e⟩ : State).Inv)
    (hl : (⟨c, e⟩ : State).lutv = true) : xformByte ⟨c, e'⟩ = xformByte ⟨c, e⟩ := by
  have hp (p : Rgb) (a : Byte) : pixelOut ⟨c, e'⟩ p a = pixelOut ⟨c, e⟩ p a := by
    have hi : luma p < 1024 := by have := luma_le p; omega
    have hb {ch : Nat} (hc : ch < 3) := h.lutByteAt_eq (s' := ⟨c, e'⟩) hl rfl hi hc
    rw [pixelOut, pixelOut, hb (by decide : 0 < 3), hb (by decide : 1 < 3), hb (by decide : 2 < 3)]
  funext a
  rw [xformByte, hp]
  rfl

/-- A command takes the core's state to the same core's state beside any surroundings. -/
theorem exec_sameCore (i : Instr) {c : CoreState} {e e' : Surroundings} (h : (⟨c, e⟩ : State).Inv)
    (hx : i = .xform → e'.pixBytes = e.pixBytes) : SameCore e e' (exec i ⟨c, e⟩) (exec i ⟨c, e'⟩) := by
  cases i with
  | wr reg imm =>
    exact .unlessError <| .ite Iff.rfl (fun _ => by cases reg <;> exact ⟨_, rfl, rfl⟩) fun _ => .raiseError c e e' _
  | rd reg => cases reg <;> exact ⟨_, rfl, rfl⟩
  | rgb2hsv | hsv2rgb | lutbuild => exact .unlessError ⟨_, rfl, rfl⟩
  | alpha =>
    exact .unlessError <| .ite Iff.rfl (fun _ => .raiseError c e e' _) fun _ =>
      .ite Iff.rfl (fun _ => .raiseError c e e' _) fun _ => ⟨_, rfl, rfl⟩
  | xform =>
    refine .unlessError <| .ite Iff.rfl (fun _ => .raiseError c e e' _) fun _ =>
      .ite Iff.rfl (fun _ => .raiseError c e e' _) fun hl =>
      .ite ?_ (fun _ => .raiseError c e e' _) fun _ => ⟨_, rfl, ?_⟩
    · show e.pixBytes < _ ↔ e'.pixBytes < _
      rw [hx rfl]; rfl
    · rw [xformByte_eq e' h (by simpa using hl)]; rfl

/-- Settles O48: two states with the same core are that core beside two surroundings. -/
theorem commandsAreFunctionsOfTheCoreState : Obligations.CommandsAreFunctionsOfTheCoreState := by
  rintro i ⟨c, e⟩ ⟨_, e'⟩ h rfl hx
  obtain ⟨d, ht, ht'⟩ := exec_sameCore i h hx
  exact ⟨_, _, ht, ht', rfl, rfl, rfl⟩

/-! ### Reset (10_state.md R26, 70_reset_and_hazards.md R117) -/

/-- With HEIGHT zero, outside the error state, XFORM and ALPHA are refused with DIM (42_alpha.md R85, 43_xform.md R92). -/
theorem exec_refused_of_height_zero {s : State} (he : s.err = 0) (hh : s.height = 0) :
    exec .xform s = .next (s.setErr 2) ∧ exec .alpha s = .next (s.setErr 2) := by
  have h3 : s.height.toNat < 3 := by rw [hh]; decide
  exact ⟨(unlessError_of_clear s _ he).trans (if_pos (.inl h3)), (unlessError_of_clear s _ he).trans (if_pos h3)⟩

/-- Settles O8: the state after the reset event is resetCore of the one before, the move taken from the inbox. -/
theorem resetLeavesTheResetState : Obligations.ResetLeavesTheResetState := by
  refine ⟨fun s rest hi => ⟨_, step_of_inbox s _ rest hi, ?_⟩, by decide, fun _ _ => rfl⟩
  obtain ⟨hx, ha⟩ := exec_refused_of_height_zero (State.err_resetCore { s with inbox := rest }) rfl
  refine ⟨rfl, rfl, rfl, rfl, rfl, rfl, rfl, rfl, State.lutv_resetCore _, State.err_resetCore _, rfl, rfl, rfl, rfl, rfl,
    rfl, rfl, hx, ha⟩

end Sys2Proof.Machine
end

section
/-! PROOFS. The statements about the two memories and the host's accesses to them (20_memory.md). A step with a move pending is
runMove (step_of_inbox); what each host access answers is said once, by the condition of HostMove.inRange. -/

namespace Sys2Proof.Machine

/-! ### The byte at offset 0 (20_memory.md R32, R36) -/

/-- An XFORM that is not refused fills the buffer (43_xform.md R92). -/
theorem exec_xform_of_ready {s : State} (h : s.xformReady) :
    exec .xform s = .next { s with pix := s.pix.fillBelow (bufferBytes s) (xformByte s) } := by
  obtain ⟨he, hh, hw, hl, hb⟩ := h
  have hdim : ¬ (s.height.toNat < 3 ∨ s.width.toNat = 0) := by omega
  have hlut : ¬ s.lutv = false := by simp [hl]
  have hrange : ¬ s.pixBytes < bufferBytes s := hb.not_gt
  rw [exec, execXform, unlessError_of_clear s _ he, if_neg hdim, if_neg hlut, if_neg hrange]

theorem xform_read_of_ready {s : State} (h : s.xformReady) :
    ∃ t : State, exec .xform s = .next t ∧
      ∀ a, a < 4 * s.width.toNat * s.height.toNat → t.pix.read a = some (xformByte s a) :=
  ⟨_, exec_xform_of_ready h, fun a ha => (Memory.read_fillBelow s.pix _ (xformByte s) a).trans (if_pos ha)⟩

/-- The input of a pixel is read at offsets 1, 2 and 3 only. -/
theorem pixelIn_eq_of_memRead_eq {s t : State} (h : ∀ a, a % 4 ≠ 0 → s.memRead a = t.memRead a) (p : Nat) :
    s.pixelIn (4 * p) = t.pixelIn (4 * p) := by
  have h1 : s.memRead (4 * p + 1) = t.memRead (4 * p + 1) := h _ (by omega)
  have h2 : s.memRead (4 * p + 2) = t.memRead (4 * p + 2) := h _ (by omega)
  have h3 : s.memRead (4 * p + 3) = t.memRead (4 * p + 3) := h _ (by omega)
  rw [State.pixelIn, State.pixelIn, h1, h2, h3]

/-- PIX reaches what XFORM writes through the input of the pixel only (43_xform.md R91). -/
theorem xformByte_with_pix {s : State} {m : Memory} (a : Nat)
    (h : s.pixelIn (4 * (a / 4)) = ({ s with pix := m } : State).pixelIn (4 * (a / 4))) :
    xformByte s a = xformByte { s with pix := m } a := by
  simp only [xformByte, Config.pixStride, h]
  rfl

/-- Settles O35: both buffers are filled, and with the same bytes. -/
theorem xformIgnoresOffsetZero : Obligations.XformIgnoresOffsetZero := by
  intro s s' hs hpix hread
  obtain ⟨m, rfl⟩ : ∃ m, s' = { s with pix := m } := ⟨_, hpix⟩
  have hs' : ({ s with pix := m } : State).xformReady := hs
  obtain ⟨t, ht, hbytes⟩ := xform_read_of_ready hs
  obtain ⟨t', ht', hbytes'⟩ := xform_read_of_ready hs'
  refine ⟨t, t', ht, ht', fun a ha => ?_⟩
  rw [hbytes a ha, hbytes' a ha, xformByte_with_pix a (pixelIn_eq_of_memRead_eq hread (a / 4))]

/-! ### Faults (20_memory.md R33, R37; log entry 7) -/

/-- The moves that touch a byte that does not exist. -/
theorem HostMove.inRange_eq_false_iff (m : HostMove) (n : Nat) :
    m.inRange n = false ↔
      (∃ a v, m = .pixWrite a v ∧ n ≤ a) ∨ (∃ a, m = .pixRead a ∧ n ≤ a) ∨ (∃ a, m = .lutRead a ∧ 4096 ≤ a) := by
  cases m with
  | command | reset | pixWrite | pixRead => simp [HostMove.inRange]
  | lutRead a =>
    have h : HostMove.inRange n (.lutRead a) = decide (a < 4096) := rfl
    simp [h]

/-- A move that touches a byte that does not exist is a fault. -/
theorem runMove_fault_of_not_inRange {m : HostMove} {s : State} (h : m.inRange s.pixBytes = false) :
    ∃ f, runMove m s = .fault f := by
  cases m with
  | command | reset => cases h
  | pixWrite | pixRead | lutRead => exact ⟨_, if_neg (of_decide_eq_false h)⟩

theorem runMove_fault_iff (m : HostMove) (s : State) :
    (∃ f, runMove m s = .fault f) ↔ m.inRange s.pixBytes = false := by
  refine ⟨fun ⟨f, hf⟩ => Bool.eq_false_iff.mpr fun hr => ?_, runMove_fault_of_not_inRange⟩
  obtain ⟨t, ht⟩ := runMove_answers hr
  rw [ht] at hf
  cases hf

/-- Settles O44: a step with a move pending faults as that move does, and waiting is no fault. -/
theorem onlyAbsentBytesFault : Obligations.OnlyAbsentBytesFault := by
  intro s
  cases hi : s.inbox with
  | nil => simp [step, serve, hi]
  | cons m rest =>
    rw [step_of_inbox s m rest hi, runMove_fault_iff, HostMove.inRange_eq_false_iff]
    constructor
    · intro h
      exact ⟨rest, by simpa using h⟩
    · rintro ⟨rest', ⟨a, v, hm, ha⟩ | ⟨a, hm, ha⟩ | ⟨a, hm, ha⟩⟩
      · cases hm; exact .inl ⟨a, v, rfl, ha⟩
      · cases hm; exact .inr (.inl ⟨a, rfl, ha⟩)
      · cases hm; exact .inr (.inr ⟨a, rfl, ha⟩)

/-- Settles O45: a dutiful host is served, and a step only takes a move from the inbox. -/
theorem dutifulHostIsAlwaysServed : Obligations.DutifulHostIsAlwaysServed := by
  intro s hd
  obtain ⟨t, ht⟩ := step_answers hd
  exact ⟨t, ht, step_keeps_hostDutiful hd ht, (step_arguments ht).1⟩

/-! ### The host's accesses (20_memory.md R38, R39, R41) -/

/-- The PIX byte at an address after a write to PIX (20_memory.md R38). -/
theorem State.memRead_write (s : State) (a : Nat) (v : Byte) (b : Nat) :
    ({ s with pix := s.pix.write a v } : State).memRead b = if b = a then v else s.memRead b := by
  simp only [State.memRead, Memory.read_write]
  split
  · rfl
  · rfl

/-- Settles O42: both accesses pass the test against PIX_BYTES, which serving leaves alone. -/
theorem hostAccessesPixByteByByte : Obligations.HostAccessesPixByteByByte := by
  refine ⟨fun s a v rest hi ha => ?_, fun s a rest hi ha => ?_⟩
  · exact ⟨_, (step_of_inbox s _ rest hi).trans (if_pos ha), rfl, s.memRead_write a v⟩
  · exact (step_of_inbox s _ rest hi).trans (if_pos ha)

/-- A LUT byte that holds a value is returned to the host (20_memory.md R39). -/
theorem hostLutRead_of_written {a : Nat} {v : Byte} {s : State} (ha : a < 4096) (hv : s.lut.read a = some v) :
    hostLutRead a s = .next { s with hostData := v } := by
  rw [hostLutRead, if_pos (show a < Config.lutBytes from ha), hv]

/-- An unwritten LUT byte takes one draw (93 U1; log entry 5). -/
theorem hostLutRead_of_unwritten {a : Nat} {s : State} (ha : a < 4096) (hv : s.lut.read a = none) :
    hostLutRead a s = .next { s with hostData := Config.lutUnwritten s.draws a, draws := s.draws + 1 } := by
  rw [hostLutRead, if_pos (show a < Config.lutBytes from ha), hv]

/-- Settles O43: the two cases of a read of the table, after the move is taken from the inbox. -/
theorem hostReadsTheTable : Obligations.HostReadsTheTable := by
  refine ⟨fun s a v rest hi ha hv => ?_, fun s a rest hi ha hv => ?_⟩
  · exact (step_of_inbox s _ rest hi).trans (hostLutRead_of_written (s := { s with inbox := rest }) ha hv)
  · exact ⟨_, (step_of_inbox s _ rest hi).trans (hostLutRead_of_unwritten (s := { s with inbox := rest }) ha hv), rfl⟩

end Sys2Proof.Machine
end

section
/-! PROOFS. The statements about the encoding (30_encoding.md). A command's own word decodes to it exactly when it is well
formed (decode_encode_iff); what each branch of the decoder rejects is said once, on the numbers of the fields. -/

namespace Sys2Proof.Machine

/-! ### Decoding an assembled word (30_encoding.md R51, R58) -/

theorem decode_formatC_wr (reg : BitVec 4) (imm : Packed) : decode (formatC 1 reg imm) = decodeWr reg imm := by
  rw [decode, opField_formatC, regField_formatC, immField_formatC]
  rfl

theorem decode_formatC_rd (reg : BitVec 4) (imm : Packed) : decode (formatC 2 reg imm) = decodeRd reg imm := by
  rw [decode, opField_formatC, regField_formatC, immField_formatC]
  rfl

theorem decodeRd_regNumber (r : Reg) : decodeRd (regNumber r) 0 = .ok (.rd r) := by
  rw [decodeRd, regOfNumber_regNumber]
  rfl

/-- The two tests of decodeWr are the conditions of Instr.wellFormed on a WR (30_encoding.md R55, R56). -/
theorem decodeWr_regNumber_iff (r : Reg) (imm : Packed) :
    decodeWr (regNumber r) imm = .ok (.wr r imm) ↔ (Instr.wr r imm).wellFormed = true := by
  rw [decodeWr, regOfNumber_regNumber, Instr.wellFormed]
  by_cases hw : r.writable = true
  · simp [hw, or_iff_not_imp_left]
  · simp [hw]

/-- The commands that have a word are the well-formed ones (30_encoding.md R55, R56). -/
theorem decode_encode_iff (i : Instr) : decode (encode i) = .ok i ↔ i.wellFormed = true := by
  cases i with
  | wr r imm => rw [encode, decode_formatC_wr, decodeWr_regNumber_iff]
  | rd r =>
    have hd : decode (encode (.rd r)) = .ok (.rd r) := (decode_formatC_rd _ _).trans (decodeRd_regNumber r)
    exact iff_of_true hd rfl
  | rgb2hsv | hsv2rgb | lutbuild | alpha | xform => decide

/-- Settles O2: well-formedness is what the decoder tests. -/
theorem decodeOfEncodeIsIdentity : Obligations.DecodeOfEncodeIsIdentity :=
  fun i hi => (decode_encode_iff i).mpr hi

/-- Settles O3: the word is the command's own, and decodes to it. -/
theorem decodedWordIsItsEncoding : Obligations.DecodedWordIsItsEncoding := by
  intro w i h
  have he : encode i = w := encode_of_decode h
  exact ⟨(decode_encode_iff i).mp (by rw [he, h]), he⟩

/-! ### What the decoder rejects (30_encoding.md R56) -/

theorem decodeWr_error_iff (n : BitVec 4) (imm : Packed) :
    (∃ e, decodeWr n imm = .error e) ↔ 6 ≤ n.toNat ∨ (3 ≤ n.toNat ∧ n.toNat ≤ 5 ∧ 65536 ≤ imm.toNat) := by
  rw [decodeWr]
  split
  · next hr =>
    have hn : 8 ≤ n.toNat := (regOfNumber_eq_none_iff n).mp hr
    exact iff_of_true ⟨_, rfl⟩ (by omega)
  · next r hr =>
    have hw := writable_iff r
    have hd := isDim_iff r
    rw [regNumber_of_regOfNumber n r hr] at hw hd
    split
    · next hro =>
      rw [← Bool.not_eq_true, hw] at hro
      exact iff_of_true ⟨_, rfl⟩ (by omega)
    · next hwr =>
      rw [Bool.not_eq_false, hw] at hwr
      split
      · next hwide => rw [hd] at hwide; exact iff_of_true ⟨_, rfl⟩ (by omega)
      · next hfits => rw [hd] at hfits; exact iff_of_false nofun (by omega)

theorem decodeRd_error_iff (n : BitVec 4) (imm : Packed) :
    (∃ e, decodeRd n imm = .error e) ↔ 8 ≤ n.toNat ∨ imm.toNat ≠ 0 := by
  have hi : imm ≠ 0 ↔ imm.toNat ≠ 0 := BitVec.toNat_ne
  rw [decodeRd, ← regOfNumber_eq_none_iff, ← hi]
  split
  · next hr => exact iff_of_true ⟨_, rfl⟩ (.inl hr)
  · next r hr =>
    split
    · next h0 => exact iff_of_false nofun (by simp [hr, h0])
    · next h0 => exact iff_of_true ⟨_, rfl⟩ (.inr h0)

theorem decodePlain_error_iff (i : Instr) (n : BitVec 4) (imm : Packed) :
    (∃ e, decodePlain i n imm = .error e) ↔ n.toNat ≠ 0 ∨ imm.toNat ≠ 0 := by
  have hn : n ≠ 0 ↔ n.toNat ≠ 0 := BitVec.toNat_ne
  have hi : imm ≠ 0 ↔ imm.toNat ≠ 0 := BitVec.toNat_ne
  rw [decodePlain, ← hn, ← hi]
  split
  · next h0 => exact iff_of_false nofun (by simp [h0])
  · next h0 => exact iff_of_true ⟨_, rfl⟩ (not_and_or.mp h0)

/-- The list of reserved encodings, on the numbers of the three fields. -/
def ReservedFields (op reg imm : Nat) : Prop :=
  (op = 0 ∨ 8 ≤ op) ∨ (op = 1 ∧ 6 ≤ reg) ∨ (op = 2 ∧ 8 ≤ reg) ∨
  (op = 1 ∧ 3 ≤ reg ∧ reg ≤ 5 ∧ 65536 ≤ imm) ∨ (op = 2 ∧ imm ≠ 0) ∨
  (3 ≤ op ∧ op ≤ 7 ∧ (reg ≠ 0 ∨ imm ≠ 0))

theorem decodePlain_error_iff_reserved {w : Word} {op : Nat} (i : Instr) (ho : (opField w).toNat = op)
    (h : 3 ≤ op ∧ op ≤ 7) : (∃ e, decodePlain i (regField w) (immField w) = .error e) ↔
      ReservedFields (opField w).toNat (regField w).toNat (immField w).toNat := by
  rw [decodePlain_error_iff, ReservedFields]
  omega

/-- Each OP value selects one branch of the decoder, which rejects its share of the list. -/
theorem decode_error_iff (w : Word) :
    (∃ e, decode w = .error e) ↔ ReservedFields (opField w).toNat (regField w).toNat (immField w).toNat := by
  rw [decode]
  split
  · next ho => rw [decodeWr_error_iff, ReservedFields]; omega
  · next ho => rw [decodeRd_error_iff, ReservedFields]; omega
  · next ho => exact decodePlain_error_iff_reserved _ ho (by decide)
  · next ho => exact decodePlain_error_iff_reserved _ ho (by decide)
  · next ho => exact decodePlain_error_iff_reserved _ ho (by decide)
  · next ho => exact decodePlain_error_iff_reserved _ ho (by decide)
  · next ho => exact decodePlain_error_iff_reserved _ ho (by decide)
  · simp only [imp_false] at *
    have ho : (opField w).toNat = 0 ∨ 8 ≤ (opField w).toNat := by omega
    exact iff_of_true ⟨_, rfl⟩ (.inl ho)

/-! ### Step(cmd) (30_encoding.md R59) -/

theorem runCommand_of_decode {w : Word} {i : Instr} (h : decode w = .ok i) (s : State) :
    runCommand w s = exec i s := by
  rw [runCommand, h]

theorem runCommand_of_error {w : Word} {e : DecodeError} (h : decode w = .error e) (s : State) :
    runCommand w s = unlessError s (raiseError .illegal s) := by
  rw [runCommand, h]

/-- Outside the error state a word that does not decode is refused with ILLEGAL (60_exceptions.md R104). -/
theorem runCommand_illegal {w : Word} {e : DecodeError} (h : decode w = .error e) {s : State} (hs : s.err = 0) :
    runCommand w s = .next (s.setErr 1) :=
  (runCommand_of_error h s).trans (unlessError_of_clear s _ hs)

/-- In the error state a command that is no RD has no effect (60_exceptions.md R112). -/
theorem exec_in_error {i : Instr} {s : State} (hs : s.err ≠ 0) (hi : ∀ r, i ≠ .rd r) : exec i s = .next s := by
  cases i with
  | rd r => exact absurd rfl (hi r)
  | wr | rgb2hsv | hsv2rgb | lutbuild | alpha | xform => exact unlessError_of_error s _ hs

theorem runCommand_in_error {w : Word} {s : State} (hs : s.err ≠ 0) (hw : ∀ r, decode w ≠ .ok (.rd r)) :
    runCommand w s = .next s := by
  cases hd : decode w with
  | error e => exact (runCommand_of_error hd s).trans (unlessError_of_error s _ hs)
  | ok i =>
    have hi : ∀ r, i ≠ .rd r := fun r hr => hw r (by rw [hd, hr])
    rw [runCommand_of_decode hd, exec_in_error hs hi]

/-- Settles O4: a word is rejected by what its fields are, and a rejected word raises ILLEGAL. -/
theorem reservedEncodingsAreRefused : Obligations.ReservedEncodingsAreRefused := by
  refine ⟨fun w => ?_, ⟨_, rfl⟩, ⟨_, rfl⟩⟩
  have hiff := decode_error_iff w
  rw [opField_toNat, regField_toNat, immField_toNat] at hiff
  refine ⟨hiff, fun hres s hs => ?_⟩
  obtain ⟨e, he⟩ := hiff.mpr hres
  exact runCommand_illegal he hs

/-- Settles O6: the branches of Step(cmd), and what is left of the host's moves. -/
theorem commandStepFollowsThePseudocode : Obligations.CommandStepFollowsThePseudocode := by
  refine ⟨fun s w r _ h => runCommand_of_decode h s, fun s w => runCommand_in_error,
    fun s w e hs h => runCommand_illegal h hs, fun s w i _ h => runCommand_of_decode h s,
    fun s w => runCommand_answers w s, fun m s t hm hr h => ?_⟩
  rcases runMove_cases h with ⟨w, hw, -⟩ | ⟨hreset, -⟩ | ⟨-, -, ht⟩
  · exact absurd hw (hm w)
  · exact absurd hreset hr
  · exact ht

/-! ### Words of fixed value, and the word a step runs (30_encoding.md R53; log entry 2) -/

/-- Settles O1: thirteen closed words. -/
theorem wordsOfEveryCommandDecode : Obligations.WordsOfEveryCommandDecode := by
  unfold Obligations.WordsOfEveryCommandDecode
  decide

/-- A command word is its own 32 low bits (30_encoding.md R50). -/
theorem tableWord_toNat (w : Word) : tableWord 32 w.toNat = w := by
  rw [tableWord, Nat.mod_eq_of_lt w.isLt, BitVec.ofNat_toNat, BitVec.setWidth_eq]

/-- Settles O5: the oldest move is the command word, and withFetchWord puts the word there. -/
theorem stepRunsTheDecodedCommand : Obligations.StepRunsTheDecodedCommand := by
  refine ⟨fun s w rest i hi h => ?_, fun s w i h => ?_⟩
  · exact (step_of_inbox s _ rest hi).trans (runCommand_of_decode h _)
  · rw [State.withFetchWord, tableWord_toNat]
    exact (step_of_inbox (s.issue w) _ s.inbox rfl).trans (runCommand_of_decode h s)

end Sys2Proof.Machine
end

section
/-! PROOFS. The statements about the colour space converters (40_colorspace.md). The fields of RgbToHsv are said once each, over
the greatest and the least channel of the colour and the branch of the hue; the channels of HsvToRgb once, as the entry of the
six-way table. -/

namespace Sys2Proof.Machine

/-! ### The hue division: the product first, truncated toward zero (40_colorspace.md R65) -/

theorem hueTerm_neg (x d : Int) : Params.hueTerm (-x) d = -Params.hueTerm x d := by
  rw [Params.hueTerm, Params.hueTerm, mul_neg, Int.neg_tdiv]

theorem hueTerm_nonneg {x d : Int} (hx : 0 ≤ x) (hd : 0 ≤ d) : 0 ≤ Params.hueTerm x d :=
  Int.tdiv_nonneg (mul_nonneg (Int.natCast_nonneg _) hx) hd

theorem abs_hueTerm (x : Int) {d : Int} (hd : 0 ≤ d) : |Params.hueTerm x d| = Params.hueTerm |x| d := by
  rcases le_total 0 x with hx | hx
  · rw [abs_of_nonneg hx, abs_of_nonneg (hueTerm_nonneg hx hd)]
  · have hn : 0 ≤ Params.hueTerm (-x) d := hueTerm_nonneg (neg_nonneg.mpr hx) hd
    rw [abs_of_nonpos hx, ← abs_neg, ← hueTerm_neg, abs_of_nonneg hn]

theorem hueTerm_mul_self_nonneg (x : Int) {d : Int} (hd : 0 ≤ d) : 0 ≤ Params.hueTerm x d * x := by
  rcases le_total 0 x with hx | hx
  · exact mul_nonneg (hueTerm_nonneg hx hd) hx
  · have hn : 0 ≤ Params.hueTerm (-x) d := hueTerm_nonneg (neg_nonneg.mpr hx) hd
    rw [hueTerm_neg] at hn
    exact mul_nonneg_of_nonpos_of_nonpos (neg_nonneg.mp hn) hx

theorem abs_hueTerm_bounds (x : Int) {d : Int} (hd : 0 < d) :
    |Params.hueTerm x d| * d ≤ |43 * x| ∧ |43 * x| < (|Params.hueTerm x d| + 1) * d := by
  have habs : |(43 : Int) * x| = 43 * |x| := by rw [abs_mul, abs_of_pos (by decide : (0 : Int) < 43)]
  rw [abs_hueTerm x hd.le, habs, Params.hueTerm, mul_comm _ d]
  exact ⟨Int.mul_tdiv_self_le (mul_nonneg (by decide) (abs_nonneg x)), Int.lt_tdiv_add_one_mul_self _ hd⟩

/-- A difference of at most the divisor moves the hue by at most HUE_STEP (40_colorspace.md R66 (c), (d)). -/
theorem abs_hueTerm_le {x d : Int} (hd : 0 < d) (hx : |x| ≤ d) : |Params.hueTerm x d| ≤ 43 := by
  obtain ⟨hle, -⟩ := abs_hueTerm_bounds x hd
  rw [abs_mul, abs_of_pos (by decide : (0 : Int) < 43)] at hle
  exact le_of_mul_le_mul_right (hle.trans (mul_le_mul_of_nonneg_left hx (by decide))) hd

/-! ### The greatest and the least channel, and the branch of the hue (40_colorspace.md R65) -/

/-- `max(r, g, b)`. -/
def maxChannel (c : Rgb) : Nat := max c.r.toNat (max c.g.toNat c.b.toNat)

/-- `min(r, g, b)`. -/
def minChannel (c : Rgb) : Nat := min c.r.toNat (min c.g.toNat c.b.toNat)

/-- The hue offset of a colour and the difference its hue divides: of the r branch, else the g branch, else the b branch. -/
def hueBranch (c : Rgb) : Int × Int :=
  if c.r.toNat = maxChannel c then (0, (c.g.toNat : Int) - c.b.toNat)
  else if c.g.toNat = maxChannel c then (85, (c.b.toNat : Int) - c.r.toNat)
  else (171, (c.r.toNat : Int) - c.g.toNat)

theorem hueBranch_of_red {c : Rgb} (hr : c.r.toNat = maxChannel c) :
    hueBranch c = (0, (c.g.toNat : Int) - c.b.toNat) := if_pos hr

theorem hueBranch_of_green {c : Rgb} (hr : c.r.toNat ≠ maxChannel c) (hg : c.g.toNat = maxChannel c) :
    hueBranch c = (85, (c.b.toNat : Int) - c.r.toNat) := (if_neg hr).trans (if_pos hg)

theorem hueBranch_of_blue {c : Rgb} (hr : c.r.toNat ≠ maxChannel c) (hg : c.g.toNat ≠ maxChannel c) :
    hueBranch c = (171, (c.r.toNat : Int) - c.g.toNat) := (if_neg hr).trans (if_neg hg)

theorem maxChannel_lt (c : Rgb) : maxChannel c < 256 := by
  have := c.r.isLt; have := c.g.isLt; have := c.b.isLt
  rw [maxChannel]
  omega

theorem minChannel_le_maxChannel (c : Rgb) : minChannel c ≤ maxChannel c := by
  rw [minChannel, maxChannel]
  omega

theorem abs_hueBranch_le (c : Rgb) : |(hueBranch c).2| ≤ (maxChannel c : Int) - minChannel c := by
  rw [hueBranch, minChannel, maxChannel, abs_le]
  split
  · dsimp only
    omega
  · split
    · dsimp only
      omega
    · dsimp only
      omega

theorem wideHue_eq (c : Rgb) (d : Nat) :
    wideHue c (maxChannel c) d = (hueBranch c).1 + Params.hueTerm (hueBranch c).2 d := by
  simp only [wideHue, hueBranch, eq_comm (a := maxChannel c)]
  split
  · exact (zero_add _).symm
  · split
    · rfl
    · rfl

/-! ### The fields of RgbToHsv (40_colorspace.md R65, R66) -/

/-- The saturation of a colour as a number. -/
def saturation (c : Rgb) : Nat := 255 * (maxChannel c - minChannel c) / maxChannel c

/-- 40_colorspace.md R66 (a). -/
theorem saturation_eq_zero_iff (c : Rgb) : saturation c = 0 ↔ maxChannel c = minChannel c := by
  have hle := minChannel_le_maxChannel c
  have hlt := maxChannel_lt c
  rw [saturation, Nat.div_eq_zero_iff]
  omega

theorem saturation_le (c : Rgb) : saturation c ≤ 255 :=
  Nat.div_le_of_le_mul (by rw [mul_comm]; exact Nat.mul_le_mul_right _ (Nat.sub_le _ _))

/-- 40_colorspace.md R66 (b). -/
theorem saturation_eq_255_iff {c : Rgb} (h : maxChannel c ≠ minChannel c) : saturation c = 255 ↔ minChannel c = 0 := by
  have hle := minChannel_le_maxChannel c
  have hpos : 0 < maxChannel c := by omega
  have hmax : 255 ≤ saturation c ↔ 255 * maxChannel c ≤ 255 * (maxChannel c - minChannel c) :=
    Nat.le_div_iff_mul_le hpos
  have := saturation_le c
  omega

/-- A gray, black included, keeps its value and has neither hue nor saturation. -/
theorem rgbToHsv_of_gray {c : Rgb} (h : maxChannel c = minChannel c) :
    rgbToHsv c = ⟨0, 0, BitVec.ofNat 8 (maxChannel c)⟩ := by
  rw [rgbToHsv]
  split
  · next h0 => rw [show maxChannel c = 0 from h0]; rfl
  · exact if_pos ((saturation_eq_zero_iff c).mpr h)

theorem rgbToHsv_h_of_gray {c : Rgb} (h : maxChannel c = minChannel c) : (rgbToHsv c).h = 0 := by
  rw [rgbToHsv_of_gray h]

theorem rgbToHsv_of_not_gray {c : Rgb} (h : maxChannel c ≠ minChannel c) :
    rgbToHsv c = ⟨BitVec.ofInt 8 (wideHue c (maxChannel c) (maxChannel c - minChannel c)),
      BitVec.ofNat 8 (saturation c), BitVec.ofNat 8 (maxChannel c)⟩ := by
  have hle := minChannel_le_maxChannel c
  have hpos : ¬ maxChannel c = 0 := by omega
  exact (if_neg hpos).trans (if_neg (mt (saturation_eq_zero_iff c).mp h))

@[simp] theorem rgbToHsv_v_toNat (c : Rgb) : (rgbToHsv c).v.toNat = maxChannel c := by
  have hv : (rgbToHsv c).v = BitVec.ofNat 8 (maxChannel c) := by
    by_cases h : maxChannel c = minChannel c
    · rw [rgbToHsv_of_gray h]
    · rw [rgbToHsv_of_not_gray h]
  rw [hv, BitVec.toNat_ofNat, Nat.mod_eq_of_lt (maxChannel_lt c)]

@[simp] theorem rgbToHsv_s_toNat (c : Rgb) : (rgbToHsv c).s.toNat = saturation c := by
  by_cases h : maxChannel c = minChannel c
  · rw [rgbToHsv_of_gray h, (saturation_eq_zero_iff c).mpr h]
    rfl
  · rw [rgbToHsv_of_not_gray h]
    exact Nat.mod_eq_of_lt (Nat.lt_succ_of_le (saturation_le c))

/-- A saturation of 0 is that of a gray (40_colorspace.md R66 (a)). -/
theorem rgbToHsv_s_eq_zero_iff (c : Rgb) : (rgbToHsv c).s = 0 ↔ maxChannel c = minChannel c := by
  rw [← saturation_eq_zero_iff, ← rgbToHsv_s_toNat]
  exact BitVec.toNat_inj.symm

/-- The hue of a colour that is no gray, narrowed once, by `mod 256`. -/
theorem rgbToHsv_h_toNat {c : Rgb} (h : maxChannel c ≠ minChannel c) :
    ((rgbToHsv c).h.toNat : Int) =
      ((hueBranch c).1 + Params.hueTerm (hueBranch c).2 (maxChannel c - minChannel c : Int)) % 256 := by
  rw [rgbToHsv_of_not_gray h, wideHue_eq, Nat.cast_sub (minChannel_le_maxChannel c), BitVec.toNat_ofInt]
  exact Int.toNat_of_nonneg (Int.emod_nonneg _ (by decide))

/-- The hue lies within HUE_STEP of its branch's offset, modulo 256 (40_colorspace.md R66 (c), (d)). -/
theorem rgbToHsv_h_near_offset {c : Rgb} (h : maxChannel c ≠ minChannel c) :
    ∃ q : Int, -43 ≤ q ∧ q ≤ 43 ∧ ((rgbToHsv c).h.toNat : Int) = ((hueBranch c).1 + q) % 256 := by
  have hle := minChannel_le_maxChannel c
  obtain ⟨hlo, hhi⟩ := abs_le.mp (abs_hueTerm_le (by omega) (abs_hueBranch_le c))
  exact ⟨_, hlo, hhi, rgbToHsv_h_toNat h⟩

/-- Settles O21: the saturation's quotient, and the hue by its branch and its term. -/
theorem rgbToHsvFollowsItsFormula : Obligations.RgbToHsvFollowsItsFormula := by
  intro c r g b mx d o h s branch
  have hmx : mx = maxChannel c := by simp only [mx, r, g, b, maxChannel, Nat.cast_max]
  have hd : d = (maxChannel c : Int) - minChannel c := by
    simp only [d, hmx, r, g, b, minChannel, Nat.cast_min]
  have hbranch : branch = hueBranch c := by
    simp only [branch, hmx, r, g, b, hueBranch, Nat.cast_inj]
  have hle := minChannel_le_maxChannel c
  have hs : s = saturation c := congrArg Nat.cast (rgbToHsv_s_toNat c)
  have hgray : s = 0 ↔ maxChannel c = minChannel c := by rw [hs, Nat.cast_eq_zero, saturation_eq_zero_iff]
  refine ⟨?_, fun h0 => ?_, fun h0 => ?_, fun h0 => ?_, fun h0 => ?_⟩
  · rw [hmx, ← rgbToHsv_v_toNat]
  · have hmax : maxChannel c = 0 := by omega
    have ho : o = ⟨0, 0, BitVec.ofNat 8 (maxChannel c)⟩ := rgbToHsv_of_gray (by omega)
    rw [ho, hmax]
    rfl
  · have hpos : 0 < maxChannel c := by omega
    have hlow : saturation c * maxChannel c ≤ 255 * (maxChannel c - minChannel c) := Nat.div_mul_le_self _ _
    have hhigh : 255 * (maxChannel c - minChannel c) < (saturation c + 1) * maxChannel c := by
      rw [mul_comm _ (maxChannel c)]
      exact Nat.lt_mul_div_succ _ hpos
    rw [hs, hmx, hd, ← Nat.cast_sub hle]
    exact ⟨mod_cast hlow, mod_cast hhigh⟩
  · have hh : o.h = 0 := rgbToHsv_h_of_gray (hgray.mp h0)
    simp [h, hh]
  · have hne : maxChannel c ≠ minChannel c := mt hgray.mpr h0
    have hpos : 0 < d := by omega
    obtain ⟨hlow, hhigh⟩ := abs_hueTerm_bounds branch.2 hpos
    refine ⟨_, hlow, hhigh, hueTerm_mul_self_nonneg _ hpos.le, ?_⟩
    rw [hbranch, hd]
    exact rgbToHsv_h_toNat hne

/-- Settles O22: the saturation's range, and the hue within HUE_STEP of its branch's offset. -/
theorem rgbToHsvHuesLieInTheirSectors : Obligations.RgbToHsvHuesLieInTheirSectors := by
  intro c mx mn o
  have hs : o.s.toNat = saturation c := rgbToHsv_s_toNat c
  have hhue (hne : mx ≠ mn) : ∃ q : Int, -43 ≤ q ∧ q ≤ 43 ∧ (o.h.toNat : Int) = ((hueBranch c).1 + q) % 256 :=
    rgbToHsv_h_near_offset hne
  refine ⟨rgbToHsv_s_eq_zero_iff c, fun hne => ?_, fun hne hr => ?_, fun hne hr hg => ?_, fun hne hr hg => ?_⟩
  · have hpos : saturation c ≠ 0 := mt (saturation_eq_zero_iff c).mp hne
    exact ⟨by omega, by rw [hs]; exact saturation_eq_255_iff hne⟩
  · obtain ⟨q, hlo, hhi, hh⟩ := hhue hne
    rw [hueBranch_of_red hr] at hh
    omega
  · obtain ⟨q, hlo, hhi, hh⟩ := hhue hne
    rw [hueBranch_of_green hr hg] at hh
    omega
  · obtain ⟨q, hlo, hhi, hh⟩ := hhue hne
    rw [hueBranch_of_blue hr hg] at hh
    omega

/-! ### The channels of HsvToRgb (40_colorspace.md R67, R69; q and t of R68, log entry 9) -/

/-- The six-way table: the channels of a region, from v and the three intermediates. -/
def sectorTable (region v p q t : Nat) : Nat × Nat × Nat :=
  match region with
  | 0 => (v, t, p)
  | 1 => (q, v, p)
  | 2 => (p, v, t)
  | 3 => (p, q, v)
  | 4 => (t, p, v)
  | _ => (v, p, q)

/-- Every entry of the table has v in one channel, and in the two others what holds of all three intermediates. -/
theorem sectorTable_cases {P : Nat → Prop} {region v p q t r g b : Nat} (hp : P p) (hq : P q) (ht : P t)
    (h : (r, g, b) = sectorTable region v p q t) :
    (r = v ∧ P g ∧ P b) ∨ (g = v ∧ P r ∧ P b) ∨ (b = v ∧ P r ∧ P g) := by
  match region with
  | 0 => cases h; exact .inl ⟨rfl, ht, hp⟩
  | 1 => cases h; exact .inr (.inl ⟨rfl, hq, hp⟩)
  | 2 => cases h; exact .inr (.inl ⟨rfl, hp, ht⟩)
  | 3 => cases h; exact .inr (.inr ⟨rfl, hp, hq⟩)
  | 4 => cases h; exact .inr (.inr ⟨rfl, ht, hp⟩)
  | _ + 5 => cases h; exact .inl ⟨rfl, hp, hq⟩

/-- A value scaled by a factor of at most 255 as an 8.8 fixed-point number, truncated. -/
def scaled (v k : Nat) : Nat := v * k / 256

theorem scaled_eq_shiftRight (v k : Nat) : scaled v k = (v * k) >>> 8 :=
  (Nat.shiftRight_eq_div_pow _ 8).symm

theorem scaled_bounds (v k : Nat) : 256 * scaled v k ≤ v * k ∧ v * k < 256 * (scaled v k + 1) := by
  rw [scaled]
  omega

/-- 40_colorspace.md R69 (c). -/
theorem scaled_le (v : Byte) {k : Nat} (hk : k ≤ 255) : scaled v.toNat k ≤ 254 := by
  have hle : v.toNat * k ≤ 255 * 255 := Nat.mul_le_mul (Nat.le_of_lt_succ v.isLt) hk
  rw [scaled]
  omega

theorem ofNat_scaled_toNat (v : Byte) {k : Nat} (hk : k ≤ 255) :
    (BitVec.ofNat 8 (scaled v.toNat k)).toNat = scaled v.toNat k :=
  Nat.mod_eq_of_lt (Nat.lt_succ_of_le ((scaled_le v hk).trans (by decide)))

theorem hsvQ_eq_scaled (v s rem : Nat) : Params.hsvQ v s rem = scaled v (255 - s * rem / 256) := by
  rw [Params.hsvQ, scaled_eq_shiftRight, Nat.shiftRight_eq_div_pow (s * rem)]

theorem hsvT_eq_scaled (v s rem : Nat) : Params.hsvT v s rem = scaled v (255 - s * (255 - rem) / 256) := by
  rw [Params.hsvT, scaled_eq_shiftRight, Nat.shiftRight_eq_div_pow (s * (255 - rem))]

/-- The remainder of a hue in its region. -/
def hueRem (h : Byte) : Nat := 6 * (h.toNat - 43 * (h.toNat / 43))

/-- The narrowing of the remainder never changes it (40_colorspace.md R69 (b)). -/
theorem hueRem_eq (h : Byte) : (h.toNat - h.toNat / Params.hueStep * Params.hueStep) * 6 % 256 = hueRem h := by
  rw [hueRem, Params.hueStep]
  omega

theorem hsvToRgb_of_s_zero {c : Hsv} (h : c.s = 0) : hsvToRgb c = ⟨c.v, c.v, c.v⟩ := if_pos h

/-- With s not zero the channels are the table's entry for the region; the narrowing of p, q and t changes none of them. -/
theorem hsvToRgb_toNat {c : Hsv} (h : c.s ≠ 0) :
    ((hsvToRgb c).r.toNat, (hsvToRgb c).g.toNat, (hsvToRgb c).b.toNat) =
      sectorTable (c.h.toNat / 43) c.v.toNat (scaled c.v.toNat (255 - c.s.toNat))
        (scaled c.v.toNat (255 - c.s.toNat * hueRem c.h / 256))
        (scaled c.v.toNat (255 - c.s.toNat * (255 - hueRem c.h) / 256)) := by
  have hnarrow (k : Nat) : (BitVec.ofNat 8 (scaled c.v.toNat (255 - k))).toNat = scaled c.v.toNat (255 - k) :=
    ofNat_scaled_toNat c.v (Nat.sub_le 255 k)
  rw [hsvToRgb, if_neg h]
  simp only [hueRem_eq, hsvQ_eq_scaled, hsvT_eq_scaled, ← scaled_eq_shiftRight]
  show _ = sectorTable (c.h.toNat / Params.hueStep) _ _ _ _
  generalize c.h.toNat / Params.hueStep = region
  match region with
  | 0 | 1 | 2 | 3 | 4 | _ + 5 => simp only [sectorTable, hnarrow]

/-- Settles O24: the table's entry for the region, and what truncation leaves of each intermediate. -/
theorem hsvToRgbFollowsItsFormula : Obligations.HsvToRgbFollowsItsFormula := by
  intro c h s v o
  have hzero : c.s = 0 ↔ s = 0 := BitVec.toNat_inj.symm
  refine ⟨fun h0 => hsvToRgb_of_s_zero (hzero.mpr h0), fun h0 => ?_⟩
  have hlt : h < 256 := c.h.isLt
  obtain ⟨hp, hp'⟩ := scaled_bounds v (255 - s)
  obtain ⟨hq, hq'⟩ := scaled_bounds v (255 - s * hueRem c.h / 256)
  obtain ⟨ht, ht'⟩ := scaled_bounds v (255 - s * (255 - hueRem c.h) / 256)
  exact ⟨h / 43, hueRem c.h, _, _, _, by omega, by omega, by omega, rfl, hp, hp', hq, hq', ht, ht',
    hsvToRgb_toNat (mt hzero.mp h0)⟩

/-- With s not zero one channel is v, and the two others are what holds of every scaling of v. -/
theorem hsvToRgb_cases {P : Nat → Prop} {c : Hsv} (hs : c.s ≠ 0) (hP : ∀ k ≤ 255, P (scaled c.v.toNat k)) :
    ((hsvToRgb c).r = c.v ∧ P (hsvToRgb c).g.toNat ∧ P (hsvToRgb c).b.toNat) ∨
    ((hsvToRgb c).g = c.v ∧ P (hsvToRgb c).r.toNat ∧ P (hsvToRgb c).b.toNat) ∨
    ((hsvToRgb c).b = c.v ∧ P (hsvToRgb c).r.toNat ∧ P (hsvToRgb c).g.toNat) := by
  have h := sectorTable_cases (hP _ (Nat.sub_le _ _)) (hP _ (Nat.sub_le _ _)) (hP _ (Nat.sub_le _ _))
    (hsvToRgb_toNat hs)
  simpa only [BitVec.toNat_inj] using h

/-- 40_colorspace.md R69 (d). -/
theorem hsvToRgb_of_v_zero (h s : Byte) : hsvToRgb ⟨h, s, 0⟩ = ⟨0, 0, 0⟩ := by
  by_cases hs : s = 0
  · exact hsvToRgb_of_s_zero hs
  · have hblack : ∀ k ≤ 255, BitVec.ofNat 8 (scaled (0 : Byte).toNat k) = 0 := by simp [scaled]
    have h := hsvToRgb_cases (c := ⟨h, s, 0⟩) (P := fun n => BitVec.ofNat 8 n = 0) hs hblack
    simp only [BitVec.ofNat_toNat, BitVec.setWidth_eq] at h
    rcases h with ⟨hr, hg, hb⟩ | ⟨hg, hr, hb⟩ | ⟨hb, hr, hg⟩ <;> exact (Rgb.mk.injEq ..).mpr ⟨hr, hg, hb⟩

/-- A colour whose saturation is 0 has the greatest channel in all three. -/
theorem eq_gray_of_max_eq_min {c : Rgb} (h : maxChannel c = minChannel c) :
    c = ⟨(rgbToHsv c).v, (rgbToHsv c).v, (rgbToHsv c).v⟩ := by
  have hv := rgbToHsv_v_toNat c
  rw [maxChannel, minChannel] at h
  rw [maxChannel] at hv
  obtain ⟨r, g, b⟩ := c
  dsimp only at h hv
  rw [Rgb.mk.injEq, ← BitVec.toNat_inj, ← BitVec.toNat_inj, ← BitVec.toNat_inj]
  omega

/-- Settles O25: v and two scalings of v, or, with s zero, the gray of v. -/
theorem hsvToRgbChannelsAreBounded : Obligations.HsvToRgbChannelsAreBounded := by
  refine ⟨fun c hs => hsvToRgb_cases (P := (· ≤ 254)) hs fun k hk => scaled_le c.v hk, hsvToRgb_of_v_zero,
    fun h v => hsvToRgb_of_s_zero rfl, fun c hs => ?_⟩
  rw [hsvToRgb_of_s_zero hs]
  exact (eq_gray_of_max_eq_min ((rgbToHsv_s_eq_zero_iff c).mp hs)).symm

/-! ### The two commands (40_colorspace.md R70, R71) -/

/-- Settles O20: outside the error state the effect is one update, and the packing is unfolded as a number. -/
theorem rgb2hsvWritesHsv : Obligations.Rgb2hsvWritesHsv := by
  refine ⟨by decide, fun s hs => ⟨_, unlessError_of_clear s _ hs, rfl, packHsv_toNat _⟩,
    fun s hs => unlessError_of_error s _ hs, fun c => ?_, by decide, by decide, by decide⟩
  have hmax : maxChannel ⟨c, c, c⟩ = c.toNat := by simp [maxChannel]
  have hmin : minChannel ⟨c, c, c⟩ = c.toNat := by simp [minChannel]
  rw [rgbToHsv_of_gray (hmax.trans hmin.symm), hmax, BitVec.ofNat_toNat, BitVec.setWidth_eq]

/-- Settles O23: outside the error state the effect is one update, and the packing is unfolded as a number. -/
theorem hsv2rgbWritesRgb : Obligations.Hsv2rgbWritesRgb :=
  ⟨by decide, fun s hs => ⟨_, unlessError_of_clear s _ hs, rfl, packRgb_toNat _⟩,
    fun s hs => unlessError_of_error s _ hs, by decide, by decide⟩

/-- Settles O26: four closed round trips, and a black whose hue is not zero, which comes back with hue 0. -/
theorem roundTripIsNotTheIdentity : Obligations.RoundTripIsNotTheIdentity :=
  ⟨by decide, by decide, by decide, by decide, ⟨1, 0, 0⟩, by decide⟩

end Sys2Proof.Machine
end

section
/-! PROOFS. The statements about the lookup-table builder (41_lutbuild.md). Brightness and a table byte are said once each as
numbers; what LUTBUILD leaves in a slot is said once, and the loop of the pseudocode is compared with it address by address. -/

namespace Sys2Proof.Machine

/-! ### Brightness (41_lutbuild.md R76) -/

/-- A fraction of one half is rounded up (log entry 11). -/
theorem roundQuarter_eq (i : Nat) : Params.roundQuarter i = (i + 2) / 4 := by
  rw [Params.roundQuarter]
  split
  · omega
  · split
    · omega
    · show i / 4 + 1 = (i + 2) / 4
      omega

theorem brightness_eq (i : Nat) : brightness i = min 255 ((i + 2) / 4 + 30) := by
  rw [brightness, roundQuarter_eq, Params.brightFloor]

theorem brightness_le (i : Nat) : brightness i ≤ 255 := Nat.min_le_left _ _

theorem brightness_mono {i j : Nat} (h : i ≤ j) : brightness i ≤ brightness j := by
  rw [brightness_eq, brightness_eq]
  omega

/-- 41_lutbuild.md R80 (b). -/
theorem brightness_of_ge {i : Nat} (h : 898 ≤ i) : brightness i = 255 := by
  rw [brightness_eq]
  omega

/-- 41_lutbuild.md R80 (c). -/
theorem brightness_congr {i j : Nat} (h : (i + 2) / 4 = (j + 2) / 4) : brightness i = brightness j := by
  rw [brightness_eq, brightness_eq, h]

/-- The slots below `n` at which the two roundings of a half differ: one in each run of eight, none after 898. -/
theorem length_filter_half_slots (n : Nat) :
    ((List.range n).filter (fun i => i % 8 == 2 && decide (i ≤ 898))).length = (min n 899 + 5) / 8 := by
  induction n with
  | zero => rfl
  | succ n ih =>
    rw [List.range_succ, List.filter_append, List.length_append, ih, List.filter_singleton]
    by_cases hn : n % 8 = 2 ∧ n ≤ 898
    · simp only [hn, beq_self_eq_true, decide_true, Bool.and_self, cond_true, List.length_singleton]
      omega
    · have hf : (n % 8 == 2 && decide (n ≤ 898)) = false := by simpa using hn
      rw [hf, cond_false, List.length_nil]
      omega

/-- Settles O28: the formula, and an induction over the slots for their number. -/
theorem brightnessFollowsItsFormula : Obligations.BrightnessFollowsItsFormula := by
  refine ⟨fun i _ => ?_, length_filter_half_slots 1024⟩
  rw [brightness_eq]
  refine ⟨rfl, by omega, by omega, by omega, ?_⟩
  dsimp only
  by_cases hhalf : i % 4 = 2
  · rw [if_pos hhalf]
    split
    · omega
    · omega
  · rw [if_neg hhalf, if_neg (by omega)]
    omega

/-! ### The bytes of the table (41_lutbuild.md R78) -/

theorem scaleChannel_eq (br : Nat) (ch : Byte) : scaleChannel br ch = BitVec.ofNat 8 (br * ch.toNat / 256) := by
  rw [scaleChannel, Nat.shiftRight_eq_div_pow]

/-- A brightness scales a channel as the converter scales a value, so the narrowing changes nothing. -/
theorem scaleChannel_toNat {br : Nat} (hbr : br ≤ 255) (ch : Byte) :
    (scaleChannel br ch).toNat = br * ch.toNat / 256 := by
  rw [scaleChannel_eq, mul_comm]
  exact ofNat_scaled_toNat ch hbr

/-- 41_lutbuild.md R80 (a). -/
theorem scaleChannel_le {br : Nat} (hbr : br ≤ 255) (ch : Byte) : (scaleChannel br ch).toNat ≤ 254 := by
  rw [scaleChannel_toNat hbr, mul_comm]
  exact scaled_le ch hbr

/-- Along the slots a channel never falls (41_lutbuild.md R80 (b)). -/
theorem scaleChannel_brightness_mono {i j : Nat} (h : i ≤ j) (ch : Byte) :
    (scaleChannel (brightness i) ch).toNat ≤ (scaleChannel (brightness j) ch).toNat := by
  rw [scaleChannel_toNat (brightness_le i), scaleChannel_toNat (brightness_le j)]
  exact Nat.div_le_div_right (Nat.mul_le_mul_right _ (brightness_mono h))

/-- Byte `ch` of slot `i` after LutBuild, whatever the memory held (41_lutbuild.md R78). -/
theorem read_lutBuild_slot (c : Packed) (m : Memory) {i ch : Nat} (hi : i < 1024) (hc : ch < 3) :
    (lutBuild c m).read (4 * i + ch) = some (scaleChannel (brightness i) (channelOf (canonicalTint c) ch)) := by
  rw [read_lutBuild, if_neg (by omega), read_tableCells c i ch hi hc]

/-- What LutBuild leaves outside the slots' three bytes. -/
theorem read_lutBuild_kept (c : Packed) (m : Memory) {a : Nat} (h : a % 4 = 3 ∨ 4096 ≤ a) :
    (lutBuild c m).read a = m.read a := by
  rw [read_lutBuild, if_pos h]

/-- A LutBuild reads as if an earlier one had not been (41_lutbuild.md R79, 92 D29). -/
theorem read_lutBuild_lutBuild (c d : Packed) (m : Memory) (a : Nat) :
    (lutBuild c (lutBuild d m)).read a = (lutBuild c m).read a := by
  rw [read_lutBuild, read_lutBuild c m]
  split
  · next h => exact read_lutBuild_kept d m h
  · rfl

/-! ### The command LUTBUILD (41_lutbuild.md R79) -/

theorem State.setLutv_setLutv (s : State) : s.setLutv.setLutv = s.setLutv := by
  rw [State.setLutv, State.err_setLutv]
  rfl

theorem exec_lutbuild_of_clear {s : State} (h : s.err = 0) : exec .lutbuild s = .next (s.effectOf .lutbuild) :=
  unlessError_of_clear s _ h

theorem eq_effectOf_of_exec_lutbuild {s t : State} (h : s.err = 0) (ht : exec .lutbuild s = .next t) :
    t = s.effectOf .lutbuild := by
  rw [exec_lutbuild_of_clear h] at ht
  cases ht
  rfl

/-- Settles O27: the effect is LutBuild's memory with LUTV set, and its reads are those of the table. -/
theorem lutbuildWritesTheTable : Obligations.LutbuildWritesTheTable := by
  refine ⟨fun s hs => ?_, fun s hs => unlessError_of_error s _ hs⟩
  refine ⟨_, exec_lutbuild_of_clear hs, rfl, State.lutv_setLutv _, (s.effectOf_err _).trans hs, fun i hi => ?_,
    fun a ha => read_lutBuild_kept s.tint s.lut ha⟩
  have hbyte {ch : Nat} (hc : ch < 3) : ∃ v : Byte, (s.effectOf .lutbuild).lut.read (4 * i + ch) = some v ∧
      v.toNat = brightness i * (channelOf (canonicalTint s.tint) ch).toNat / 256 :=
    ⟨_, read_lutBuild_slot s.tint s.lut hi hc, scaleChannel_toNat (brightness_le i) _⟩
  exact ⟨hbyte (by decide : 0 < 3), hbyte (by decide : 1 < 3), hbyte (by decide : 2 < 3)⟩

/-- Settles O30: the second table reads as if the first had not been, and LUTV is set already. -/
theorem secondLutbuildReplacesTheFirst : Obligations.SecondLutbuildReplacesTheFirst := by
  intro s t c hs ht
  obtain rfl := eq_effectOf_of_exec_lutbuild hs ht
  have herr : (s.effectOf .lutbuild).err = 0 := (s.effectOf_err _).trans hs
  exact ⟨_, _, exec_lutbuild_of_clear (s := { s.effectOf .lutbuild with tint := c }) herr,
    exec_lutbuild_of_clear (s := { s with tint := c }) hs, read_lutBuild_lutBuild c s.tint s.lut,
    State.setLutv_setLutv { s with tint := c, lut := lutBuild c (lutBuild s.tint s.lut) }⟩

/-! ### The loop of the pseudocode (41_lutbuild.md R78; log entry 18) -/

/-- One iteration writes its slot's three bytes. -/
theorem read_lutIteration (t : Rgb) (m : Memory) (i a : Nat) :
    (lutIteration t m i).read a =
      if a / 4 = i ∧ a % 4 ≠ 3 then some (scaleChannel (brightness (a / 4)) (channelOf t (a % 4))) else m.read a := by
  rw [lutIteration, Memory.read_write, Memory.read_write, Memory.read_write]
  split
  · next h => rw [if_pos (by omega), show a / 4 = i by omega, show a % 4 = 2 by omega]; rfl
  · split
    · next h => rw [if_pos (by omega), show a / 4 = i by omega, show a % 4 = 1 by omega]; rfl
    · split
      · next h => rw [if_pos (by omega), show a / 4 = i by omega, show a % 4 = 0 by omega]; rfl
      · rw [if_neg (by omega)]

theorem wf_lutIteration (t : Rgb) {m : Memory} (i : Nat) (h : Memory.wf m) : Memory.wf (lutIteration t m i) :=
  Memory.wf_write _ _ _ (Memory.wf_write _ _ _ (Memory.wf_write _ _ _ h))

/-- After the iterations of a list of slots: a byte's value does not depend on when its slot was taken. -/
theorem read_foldl_lutIteration (t : Rgb) (order : List Nat) (m : Memory) (a : Nat) :
    (order.foldl (lutIteration t) m).read a =
      if a / 4 ∈ order ∧ a % 4 ≠ 3 then some (scaleChannel (brightness (a / 4)) (channelOf t (a % 4)))
      else m.read a := by
  induction order generalizing m with
  | nil => simp
  | cons i order ih =>
    rw [List.foldl_cons, ih, read_lutIteration]
    by_cases ho : a / 4 ∈ order ∧ a % 4 ≠ 3
    · rw [if_pos ho, if_pos ⟨List.mem_cons_of_mem _ ho.1, ho.2⟩]
    · rw [if_neg ho]
      exact if_congr (by rw [List.mem_cons]; tauto) rfl rfl

theorem wf_foldl_lutIteration (t : Rgb) (order : List Nat) {m : Memory} (h : Memory.wf m) :
    Memory.wf (order.foldl (lutIteration t) m) := by
  induction order generalizing m with
  | nil => exact h
  | cons i order ih => exact ih (wf_lutIteration t i h)

/-- Any order that takes each of the 1024 slots leaves LutBuild's memory. -/
theorem foldl_lutIteration_eq_lutBuild (c : Packed) {order : List Nat} {m : Memory} (hm : Memory.wf m)
    (ho : order.Perm (List.range 1024)) : order.foldl (lutIteration (canonicalTint c)) m = lutBuild c m := by
  refine Memory.ext_of_read _ _ (wf_foldl_lutIteration _ order hm) (wf_lutBuild c m) fun a => ?_
  have hslot : a / 4 ∈ order ↔ a / 4 < 1024 := ho.mem_iff.trans List.mem_range
  rw [read_foldl_lutIteration]
  split
  · next h =>
    have hread := read_lutBuild_slot c m (hslot.mp h.1) (ch := a % 4) (by omega)
    rw [Nat.div_add_mod] at hread
    exact hread.symm
  · next h =>
    rw [hslot] at h
    exact (read_lutBuild_kept c m (by omega)).symm

/-- Settles O31: the loop's memory is LutBuild's. -/
theorem lutbuildEqualsItsLoopInAnyOrder : Obligations.LutbuildEqualsItsLoopInAnyOrder := by
  intro s order hs hwf ho
  rw [exec_lutbuild_of_clear hs, foldl_lutIteration_eq_lutBuild s.tint hwf ho]
  rfl

/-! ### The properties of the table (41_lutbuild.md R80; values by R68, log entry 9) -/

/-- 41_lutbuild.md R80 (d): SAT_REF is not zero and VAL_REF is 255. -/
theorem canonicalTint_cases (c : Packed) :
    ((canonicalTint c).r = 255 ∧ (canonicalTint c).g.toNat ≤ 254 ∧ (canonicalTint c).b.toNat ≤ 254) ∨
    ((canonicalTint c).g = 255 ∧ (canonicalTint c).r.toNat ≤ 254 ∧ (canonicalTint c).b.toNat ≤ 254) ∨
    ((canonicalTint c).b = 255 ∧ (canonicalTint c).r.toNat ≤ 254 ∧ (canonicalTint c).g.toNat ≤ 254) :=
  hsvToRgb_cases (P := (· ≤ 254)) (by decide : Params.satRef ≠ 0) fun _ hk => scaled_le Params.valRef hk

/-- 41_lutbuild.md R80 (e): a gray has hue 0, as pure red has. -/
theorem canonicalTint_gray (x : Byte) : canonicalTint ((x ++ x) ++ x) = ⟨255, 75, 74⟩ := by
  have hpack : unpackRgb ((x ++ x) ++ x) = ⟨x, x, x⟩ := unpackRgb_packRgb ⟨x, x, x⟩
  have hgray : maxChannel ⟨x, x, x⟩ = minChannel ⟨x, x, x⟩ := by simp [maxChannel, minChannel]
  rw [canonicalTint, hpack, rgbToHsv_h_of_gray hgray]
  decide

/-- Settles O29: every byte of the table is its channel scaled by its slot's brightness. -/
theorem tableRisesWithBrightness : Obligations.TableRisesWithBrightness := by
  refine ⟨fun c => ⟨canonicalTint_cases c, fun ch hc i j hij hj => ?_⟩, canonicalTint_gray, by decide⟩
  refine ⟨_, _, read_tableCells c i ch (by omega) hc, read_tableCells c j ch hj hc,
    scaleChannel_brightness_mono hij _, scaleChannel_le (brightness_le j) _, fun hi => ?_, fun hrun => ?_⟩
  · rw [brightness_of_ge hi, brightness_of_ge (hi.trans hij)]
  · rw [brightness_congr hrun]

/-! ### XFORM after LUTBUILD (41_lutbuild.md R78, 43_xform.md R92) -/

/-- The table's byte for the luminance index of a colour, right after LUTBUILD. -/
theorem lutByteAt_luma_effectOf_lutbuild (s : State) (p : Rgb) {ch : Nat} (hc : ch < 3) :
    (s.effectOf .lutbuild).lutByteAt (lutAddr (luma p) ch) =
      BitVec.ofNat 8 (brightness (luma p) * (channelOf (canonicalTint s.tint) ch).toNat / 256) := by
  have hl : luma p < 1024 := (luma_le p).trans_lt (by decide)
  have hread : (s.effectOf .lutbuild).lut.read (lutAddr (luma p) ch) = _ := read_lutBuild_slot s.tint s.lut hl hc
  rw [State.lutByteAt, hread, Option.getD_some, scaleChannel_eq]

/-- Settles O39: XFORM writes each pixel's four bytes, and LUTBUILD, which leaves PIX and the dimensions, gave the table. -/
theorem xformAfterLutbuildTintsByBrightness : Obligations.XformAfterLutbuildTintsByBrightness := by
  intro s t hs ht hready
  obtain rfl := eq_effectOf_of_exec_lutbuild hs ht
  obtain ⟨u, hu, hbytes⟩ := xform_read_of_ready hready
  refine ⟨u, hu, fun x y hx hy => ?_⟩
  intro base l br k
  have hpixel {j : Nat} (hj : j < 4) : u.pix.read (base + j) = _ :=
    (hbytes _ (pixAddr_lt _ _ x y j hx hy hj)).trans (congrArg some (xformByte_pixAddr _ x y j hx hj))
  have hbr : brightness (luma (s.pixelIn base)) = br := by rw [brightness_eq, luma_eq]; rfl
  have hchannel {ch : Nat} (hc : ch < 3) :
      (s.effectOf .lutbuild).lutByteAt (lutAddr (luma (s.pixelIn base)) ch) =
        BitVec.ofNat 8 (br * (channelOf k ch).toNat / 256) := by
    rw [lutByteAt_luma_effectOf_lutbuild s _ hc, hbr]
  exact ⟨hpixel (by decide : 0 < 4),
    (hpixel (by decide : 1 < 4)).trans (congrArg some (hchannel (by decide : 0 < 3))),
    (hpixel (by decide : 2 < 4)).trans (congrArg some (hchannel (by decide : 1 < 3))),
    (hpixel (by decide : 3 < 4)).trans (congrArg some (hchannel (by decide : 2 < 3)))⟩

end Sys2Proof.Machine
end

section
/-! PROOFS. The statements about the alpha gradient (42_alpha.md). Both ramps are one quotient, row * 128 / T, which is below 128
exactly for the rows below T; AlphaAt is said once per band, and the command writes it without wrap-around. -/

namespace Sys2Proof.Machine

/-! ### The ramp (42_alpha.md R83, R84) -/

theorem ramp_lt_iff {t : Nat} (ht : 0 < t) (x : Nat) : x * 128 / t < 128 ↔ x < t := by
  rw [Nat.div_lt_iff_lt_mul ht]
  omega

theorem ramp_le {x t : Nat} (h : x ≤ t) : x * 128 / t ≤ 128 :=
  Nat.div_le_of_le_mul (Nat.mul_le_mul_right 128 h)

theorem ramp_mono {x y : Nat} (h : x ≤ y) (t : Nat) : x * 128 / t ≤ y * 128 / t :=
  Nat.div_le_div_right (Nat.mul_le_mul_right 128 h)

/-! ### AlphaAt in its three bands (42_alpha.md R83) -/

theorem alphaAt_eq (r h : Nat) :
    alphaAt r h =
      if r < h / 3 then 127 + r * 128 / (h / 3)
      else if r < 2 * h / 3 then 255
      else 255 - (r - 2 * h / 3) * 128 / (h / 3) := rfl

theorem alphaAt_of_band1 {r h : Nat} (hr : r < h / 3) : alphaAt r h = 127 + r * 128 / (h / 3) := if_pos hr

theorem alphaAt_of_band2 {r h : Nat} (ht : h / 3 ≤ r) (hb : r < 2 * h / 3) : alphaAt r h = 255 :=
  (if_neg ht.not_gt).trans (if_pos hb)

theorem alphaAt_of_band3 {r h : Nat} (hb : 2 * h / 3 ≤ r) :
    alphaAt r h = 255 - (r - 2 * h / 3) * 128 / (h / 3) := by
  have ht : ¬ r < h / 3 := by omega
  exact (if_neg ht).trans (if_neg hb.not_gt)

/-- Band 3 has at most T + 1 rows, so its ramp ends at 127 at the latest (42_alpha.md R84 (c)). -/
theorem band3_ramp_le {r h : Nat} (hr : r < h) : (r - 2 * h / 3) * 128 / (h / 3) ≤ 128 :=
  ramp_le (by omega)

/-- 42_alpha.md R84 (a): just under 255. -/
theorem alphaAt_band1_le {r h : Nat} (hr : r < h / 3) : alphaAt r h ≤ 254 := by
  have hq := (ramp_lt_iff (Nat.zero_lt_of_lt hr) r).mpr hr
  rw [alphaAt_of_band1 hr]
  omega

/-- The plateau and the first row of band 3 (42_alpha.md R84 (f)). -/
theorem alphaAt_plateau {r h : Nat} (ht : h / 3 ≤ r) (hb : r ≤ 2 * h / 3) : alphaAt r h = 255 := by
  rcases hb.lt_or_eq with hb | rfl
  · exact alphaAt_of_band2 ht hb
  · rw [alphaAt_of_band3 le_rfl, Nat.sub_self, Nat.zero_mul, Nat.zero_div]

/-- 42_alpha.md R84 (d). -/
theorem alphaAt_range {r h : Nat} (hr : r < h) : 127 ≤ alphaAt r h ∧ alphaAt r h ≤ 255 := by
  rcases lt_or_ge r (h / 3) with ht | ht
  · refine ⟨?_, (alphaAt_band1_le ht).trans (by decide)⟩
    rw [alphaAt_of_band1 ht]
    exact Nat.le_add_right _ _
  · rcases lt_or_ge r (2 * h / 3) with hb | hb
    · rw [alphaAt_of_band2 ht hb]
      decide
    · rw [alphaAt_of_band3 hb]
      exact ⟨Nat.sub_le_sub_left (band3_ramp_le hr) 255, Nat.sub_le _ _⟩

theorem alphaAt_rises_in_band1 {r r' h : Nat} (hr : r ≤ r') (hr' : r' < h / 3) : alphaAt r h ≤ alphaAt r' h := by
  rw [alphaAt_of_band1 (hr.trans_lt hr'), alphaAt_of_band1 hr']
  exact Nat.add_le_add_left (ramp_mono hr _) _

theorem alphaAt_falls_in_band3 {r r' h : Nat} (hb : 2 * h / 3 ≤ r) (hr : r ≤ r') : alphaAt r' h ≤ alphaAt r h := by
  rw [alphaAt_of_band3 hb, alphaAt_of_band3 (hb.trans hr)]
  exact Nat.sub_le_sub_left (ramp_mono (Nat.sub_le_sub_right hr _) _) _

theorem alphaAt_first_row {h : Nat} (h3 : 3 ≤ h) : alphaAt 0 h = 127 := by
  rw [alphaAt_of_band1 (Nat.div_pos h3 (by decide)), Nat.zero_mul, Nat.zero_div]

/-- The floor is reached where the ramp is complete, at T rows from the start of band 3 (42_alpha.md R84 (c)). -/
theorem alphaAt_band3_eq_floor_iff {r h : Nat} (h3 : 3 ≤ h) (hr : r < h) (hb : 2 * h / 3 ≤ r) :
    alphaAt r h = 127 ↔ h % 3 ≠ 0 ∧ r = h - 1 := by
  have hle := band3_ramp_le hr
  have hlt := ramp_lt_iff (Nat.div_pos h3 (by decide)) (r - 2 * h / 3)
  rw [alphaAt_of_band3 hb]
  calc 255 - (r - 2 * h / 3) * 128 / (h / 3) = 127
    _ ↔ ¬ (r - 2 * h / 3) * 128 / (h / 3) < 128 := by omega
    _ ↔ ¬ r - 2 * h / 3 < h / 3 := not_congr hlt
    _ ↔ h % 3 ≠ 0 ∧ r = h - 1 := by omega

/-- Settles O33: each property is that of the ramp of its band. -/
theorem alphaGradientIsMonotoneInItsBands : Obligations.AlphaGradientIsMonotoneInItsBands := by
  intro h r h3 hr
  obtain ⟨hlo, hhi⟩ := alphaAt_range hr
  exact ⟨hlo, hhi, alphaAt_band1_le, alphaAt_plateau, fun _ => alphaAt_rises_in_band1,
    fun _ hb hrr _ => alphaAt_falls_in_band3 hb hrr, alphaAt_first_row h3, alphaAt_band3_eq_floor_iff h3 hr⟩

/-! ### The command ALPHA (42_alpha.md R85) -/

/-- An ALPHA that is not refused has its effect. -/
theorem exec_alpha_of_inImage {s : State} (he : s.err = 0) (h3 : 3 ≤ s.height.toNat)
    (hr : s.row.toNat < s.height.toNat) : exec .alpha s = .next (s.effectOf .alpha) := by
  rw [exec, execAlpha, unlessError_of_clear s _ he, if_neg h3.not_gt, if_neg hr.not_ge]
  rfl

/-- AlphaAt fits a byte (42_alpha.md R84 (d)). -/
theorem ofNat_alphaAt_toNat {r h : Nat} (hr : r < h) : (BitVec.ofNat 8 (alphaAt r h)).toNat = alphaAt r h :=
  Nat.mod_eq_of_lt ((alphaAt_range hr).2.trans_lt (by decide))

/-- ALPHA at a row and height given as numbers, the byte of AlphaAt there evaluated. -/
theorem exec_alpha_of_values {s : State} {h r : Dim} {a : Byte} (he : s.err = 0) (hh : s.height = h) (hr : s.row = r)
    (h3 : 3 ≤ h.toNat) (hrh : r.toNat < h.toNat) (ha : BitVec.ofNat 8 (alphaAt r.toNat h.toNat) = a) :
    exec .alpha s = .next { s with alpha := a } := by
  subst hh hr ha
  exact exec_alpha_of_inImage he h3 hrh

/-- Settles O32: the refusals are the tests of ALPHA in their order, and the byte written is AlphaAt, which fits it. -/
theorem alphaWritesTheBandValue : Obligations.AlphaWritesTheBandValue := by
  refine ⟨fun s => ?_, by decide, fun s he hh hr => exec_alpha_of_values he hh hr (by decide) (by decide) (by decide),
    fun s he hh hr => exec_alpha_of_values he hh hr (by decide) (by decide) (by decide)⟩
  refine ⟨unlessError_of_error s _, fun he h3 => (unlessError_of_clear s _ he).trans (if_pos h3),
    fun he h3 hr => (unlessError_of_clear s _ he).trans ((if_neg h3.not_gt).trans (if_pos hr)), fun he h3 hr => ?_⟩
  have hval : (s.effectOf .alpha).alpha.toNat = alphaAt s.row.toNat s.height.toNat := ofNat_alphaAt_toNat hr
  exact ⟨_, exec_alpha_of_inImage he h3 hr, rfl, hval ▸ (alphaAt_range hr).1, hval.trans (alphaAt_eq _ _)⟩

end Sys2Proof.Machine
end

section
/-! PROOFS. The statements about the pixel transform engine (43_xform.md). What XFORM leaves in a byte of a pixel is said once,
as is the table's byte for a luminance index; the loop of the pseudocode is compared with the one step address by address. -/

namespace Sys2Proof.Machine

/-! ### The luminance index (43_xform.md R89, R90) -/

/-- Settles O36: the formula and its bound are laws of the model; a weighted sum is at most 255 times the sum of the weights. -/
theorem lumaStaysInsideTheTable : Obligations.LumaStaysInsideTheTable := by
  refine ⟨fun c => ⟨luma_eq c, luma_le c⟩, by decide, fun wr wg wb r g b hsum hr hg hb => ?_⟩
  have h1 : wr * r ≤ wr * 255 := Nat.mul_le_mul_left wr hr
  have h2 : wg * g ≤ wg * 255 := Nat.mul_le_mul_left wg hg
  have h3 : wb * b ≤ wb * 255 := Nat.mul_le_mul_left wb hb
  omega

/-! ### An XFORM that is not refused (43_xform.md R91, R92) -/

theorem eq_effectOf_of_exec_xform {s t : State} (h : s.xformReady) (ht : exec .xform s = .next t) :
    t = s.effectOf .xform := by
  rw [exec_xform_of_ready h] at ht
  cases ht
  rfl

/-- Byte `k` of a pixel after XFORM (43_xform.md R91). -/
theorem read_xform_pixel (s : State) {x y k : Nat} (hx : x < s.width.toNat) (hy : y < s.height.toNat) (hk : k < 4) :
    (s.effectOf .xform).pix.read (4 * (y * s.width.toNat + x) + k) =
      some (outByte (pixelOut s (s.pixelIn (4 * (y * s.width.toNat + x)))
        (BitVec.ofNat 8 (alphaAt y s.height.toNat))) k) := by
  rw [← xformByte_pixAddr s x y k hx hk]
  exact (Memory.read_fillBelow _ _ _ _).trans (if_pos (pixAddr_lt _ _ x y k hx hy hk))

/-- What XFORM leaves outside the buffer (43_xform.md R92). -/
theorem read_xform_outside (s : State) {a : Nat} (ha : 4 * s.width.toNat * s.height.toNat ≤ a) :
    (s.effectOf .xform).pix.read a = s.pix.read a :=
  (Memory.read_fillBelow _ _ _ _).trans (if_neg ha.not_gt)

/-- Offsets 1, 2 and 3 of an output pixel are the three bytes of the slot of its luminance index (20_memory.md R32, R33). -/
theorem outByte_pixelOut_succ (s : State) (p : Rgb) (a : Byte) {ch : Nat} (hc : ch < 3) :
    outByte (pixelOut s p a) (ch + 1) = s.lutByteAt (lutAddr (luma p) ch) := by
  obtain rfl | rfl | rfl : ch = 0 ∨ ch = 1 ∨ ch = 2 := by omega
  · rfl
  · rfl
  · rfl

/-- Settles O34: the refusals are the tests of XFORM in their order, and the buffer's bytes are those of its pixels. -/
theorem xformTransformsEveryPixel : Obligations.XformTransformsEveryPixel := by
  intro s w h
  have hdim (hh : 3 ≤ h) (hw : 1 ≤ w) : ¬ (h < 3 ∨ w = 0) := by omega
  refine ⟨unlessError_of_error s _, fun he hd => (unlessError_of_clear s _ he).trans (if_pos hd),
    fun he hh hw hl => ?_, fun he hh hw hl hb => ?_, fun he hh hw hl hb => ?_⟩
  · exact (unlessError_of_clear s _ he).trans ((if_neg (hdim hh hw)).trans (if_pos hl))
  · have hlut : ¬ s.lutv = false := ne_false_of_eq_true hl
    exact (unlessError_of_clear s _ he).trans ((if_neg (hdim hh hw)).trans ((if_neg hlut).trans (if_pos hb)))
  · refine ⟨s.effectOf .xform, exec_xform_of_ready ⟨he, hh, hw, hl, hb⟩, rfl, fun x y hx hy => ?_,
      fun a => read_xform_outside s⟩
    intro base l
    have hcolour {ch : Nat} (hc : ch < 3) :
        (s.effectOf .xform).pix.read (base + (ch + 1)) = some (s.lutByteAt (4 * l + ch)) := by
      have hluma : luma (s.pixelIn base) = l := luma_eq _
      rw [read_xform_pixel s hx hy (by omega), outByte_pixelOut_succ s _ _ hc, hluma]
      rfl
    exact ⟨⟨_, read_xform_pixel s hx hy (by decide : 0 < 4), ofNat_alphaAt_toNat hy⟩,
      hcolour (by decide : 0 < 3), hcolour (by decide : 1 < 3), hcolour (by decide : 2 < 3)⟩

/-- Settles O41: XFORM changes PIX only, on which none of its conditions rests. -/
theorem secondXformIsAccepted : Obligations.SecondXformIsAccepted := by
  intro s t hs ht
  obtain rfl := eq_effectOf_of_exec_xform hs ht
  have hready : (s.effectOf .xform).xformReady := hs
  obtain ⟨herr, -⟩ := hready
  exact ⟨hs, _, exec_xform_of_ready hs, herr⟩

/-! ### The bytes of the table that XFORM reads (43_xform.md R90; 20_memory.md R36, R39) -/

/-- The LUT reaches what XFORM writes through the bytes of the slots 0 to 828 only. -/
theorem xformByte_with_lut {s : State} {m : Memory}
    (h : ∀ a, a ≤ 3314 → a % 4 ≠ 3 → s.lut.read a = m.read a) :
    xformByte { s with lut := m } = xformByte s := by
  have hbyte (p : Rgb) {ch : Nat} (hc : ch < 3) :
      ({ s with lut := m } : State).lutByteAt (lutAddr (luma p) ch) = s.lutByteAt (lutAddr (luma p) ch) := by
    have haddr : lutAddr (luma p) ch = 4 * luma p + ch := rfl
    have hl := luma_le p
    rw [State.lutByteAt, State.lutByteAt, h _ (by omega) (by omega)]
  have hpixel (p : Rgb) (a : Byte) : pixelOut { s with lut := m } p a = pixelOut s p a := by
    rw [pixelOut, pixelOut, hbyte p (by decide : 0 < 3), hbyte p (by decide : 1 < 3), hbyte p (by decide : 2 < 3)]
  funext a
  rw [xformByte, hpixel]
  rfl

/-- Settles O37: both states are ready, and XFORM writes the same bytes in both. -/
theorem xformReadsOnlyReachableSlots : Obligations.XformReadsOnlyReachableSlots := by
  intro s s' t hs hlut hread ht
  obtain ⟨m, rfl⟩ : ∃ m, s' = { s with lut := m } := ⟨_, hlut⟩
  obtain rfl := eq_effectOf_of_exec_xform hs ht
  have hs' : ({ s with lut := m } : State).xformReady := hs
  rw [exec_xform_of_ready hs', xformByte_with_lut hread]
  rfl

/-! ### No pixel is black (43_xform.md R92; 41_lutbuild.md R76, R78, R80) -/

theorem le_brightness (i : Nat) : 30 ≤ brightness i := by
  rw [brightness_eq]
  omega

/-- The darkest slot scales 255 to 30 * 255 / 256 = 29. -/
theorem le_scaleChannel_brightness (i : Nat) : 29 ≤ (scaleChannel (brightness i) 255).toNat := by
  have hb := le_brightness i
  rw [scaleChannel_toNat (brightness_le i), show (255 : Byte).toNat = 255 from rfl]
  omega

/-- The canonical tint is saturated in one of its channels (41_lutbuild.md R80 (d)). -/
theorem exists_channelOf_canonicalTint_eq (c : Packed) : ∃ ch, ch < 3 ∧ channelOf (canonicalTint c) ch = 255 := by
  rcases canonicalTint_cases c with ⟨h, -⟩ | ⟨h, -⟩ | ⟨h, -⟩
  · exact ⟨0, by decide, h⟩
  · exact ⟨1, by decide, h⟩
  · exact ⟨2, by decide, h⟩

/-- No slot of a built table is black. -/
theorem State.Inv.exists_le_lutByteAt {s : State} (h : s.Inv) (hl : s.lutv = true) {i : Nat} (hi : i < 1024) :
    ∃ ch, ch < 3 ∧ 29 ≤ (s.lutByteAt (lutAddr i ch)).toNat := by
  obtain ⟨c, hc⟩ := h.lutBuilt hl
  obtain ⟨ch, hch, htint⟩ := exists_channelOf_canonicalTint_eq c
  have hread : s.lut.read (lutAddr i ch) = _ := hc ▸ read_tableCells c i ch hi hch
  refine ⟨ch, hch, ?_⟩
  rw [State.lutByteAt, hread, Option.getD_some, htint]
  exact le_scaleChannel_brightness i

/-- Settles O40: the colour bytes of a pixel are a slot of the table, and no slot is black. -/
theorem noOutputPixelIsBlack : Obligations.NoOutputPixelIsBlack := by
  intro s t hi hs ht x y hx hy
  obtain rfl := eq_effectOf_of_exec_xform hs ht
  obtain ⟨-, -, -, hl, -⟩ := hs
  have hslot := (luma_le (s.pixelIn (4 * (y * s.width.toNat + x)))).trans_lt (by decide : 828 < 1024)
  obtain ⟨ch, hch, hbyte⟩ := hi.exists_le_lutByteAt hl hslot
  refine ⟨ch + 1, _, by omega, by omega, read_xform_pixel s hx hy (by omega), ?_⟩
  rwa [outByte_pixelOut_succ s _ _ hch]

/-! ### The loop of the pseudocode (43_xform.md R92, R93; 20_memory.md R45; log entry 18) -/

/-- The four MemWrites of one iteration: the bytes of pixel number `p`, lowest address first (43_xform.md R92). -/
def Memory.writePixel (m : Memory) (p : Nat) (o : OutPixel) : Memory :=
  (((m.write (4 * p + 0) o.alpha).write (4 * p + 1) o.red).write (4 * p + 2) o.green).write (4 * p + 3) o.blue

theorem Memory.read_writePixel (m : Memory) (p : Nat) (o : OutPixel) (a : Nat) :
    (m.writePixel p o).read a = if a / 4 = p then some (outByte o (a % 4)) else m.read a := by
  rw [Memory.writePixel, Memory.read_write, Memory.read_write, Memory.read_write, Memory.read_write]
  by_cases hp : a / 4 = p
  · rw [if_pos hp]
    obtain h | h | h | h : a % 4 = 0 ∨ a % 4 = 1 ∨ a % 4 = 2 ∨ a % 4 = 3 := by omega
    · rw [if_neg (by omega), if_neg (by omega), if_neg (by omega), if_pos (by omega), h]; rfl
    · rw [if_neg (by omega), if_neg (by omega), if_pos (by omega), h]; rfl
    · rw [if_neg (by omega), if_pos (by omega), h]; rfl
    · rw [if_pos (by omega), h]; rfl
  · rw [if_neg hp, if_neg (by omega), if_neg (by omega), if_neg (by omega), if_neg (by omega)]

theorem Memory.wf_writePixel {m : Memory} (p : Nat) (o : OutPixel) (h : Memory.wf m) : Memory.wf (m.writePixel p o) :=
  Memory.wf_write _ _ _ (Memory.wf_write _ _ _ (Memory.wf_write _ _ _ (Memory.wf_write _ _ _ h)))

/-- One iteration writes PixelOut of the pixel it read, with its row's alpha (43_xform.md R91, R92). -/
theorem xformIteration_eq (s : State) (x y : Nat) :
    xformIteration s (x, y) = { s with
      pix := s.pix.writePixel (y * s.width.toNat + x)
        (pixelOut s (s.pixelIn (4 * (y * s.width.toNat + x))) (BitVec.ofNat 8 (alphaAt y s.height.toNat))) } := by
  rw [pixelOut, luma_eq]
  rfl

/-- Column and row of the pixel that the byte at an address belongs to (20_memory.md R31). -/
def pixelOf (width a : Nat) : Nat × Nat := (a / 4 % width, a / 4 / width)

theorem pixelOf_eq_iff {w x y : Nat} (hx : x < w) (a : Nat) : pixelOf w a = (x, y) ↔ a / 4 = y * w + x := by
  rw [pixelOf, Prod.mk.injEq]
  constructor
  · rintro ⟨rfl, rfl⟩
    exact (Nat.div_add_mod' _ _).symm
  · intro h
    obtain ⟨-, hdiv, hmod, -⟩ := pixAddr_parts w x y 0 hx (by decide)
    rw [h]
    exact ⟨hmod, hdiv⟩

theorem read_xformIteration (s : State) {x : Nat} (y : Nat) (hx : x < s.width.toNat) (a : Nat) :
    (xformIteration s (x, y)).pix.read a =
      if pixelOf s.width.toNat a = (x, y) then some (xformByte s a) else s.pix.read a := by
  rw [xformIteration_eq, Memory.read_writePixel]
  refine ite_congr (propext (pixelOf_eq_iff hx a).symm) (fun h => ?_) fun _ => rfl
  have hpix := (pixelOf_eq_iff hx a).mp h
  have hrow : a / 4 / s.width.toNat = y := congrArg Prod.snd h
  rw [← hpix, ← hrow]
  rfl

/-- An iteration leaves what XFORM writes to every other pixel: it writes none of their bytes. -/
theorem xformByte_xformIteration (s : State) {x y a : Nat} (hx : x < s.width.toNat)
    (ha : pixelOf s.width.toNat a ≠ (x, y)) : xformByte (xformIteration s (x, y)) a = xformByte s a := by
  have hmem {k : Nat} (hk : k < 4) :
      s.memRead (4 * (a / 4) + k) = (xformIteration s (x, y)).memRead (4 * (a / 4) + k) := by
    have hdiv : (4 * (a / 4) + k) / 4 = a / 4 := by omega
    have hne : pixelOf s.width.toNat (4 * (a / 4) + k) ≠ (x, y) := by rwa [pixelOf, hdiv]
    rw [State.memRead, State.memRead, read_xformIteration s y hx, if_neg hne]
  have hin : s.pixelIn (4 * (a / 4)) = (xformIteration s (x, y)).pixelIn (4 * (a / 4)) := by
    rw [State.pixelIn, State.pixelIn, hmem (by decide : 1 < 4), hmem (by decide : 2 < 4), hmem (by decide : 3 < 4)]
  exact (xformByte_with_pix a hin).symm

/-- After the iterations of distinct pixels: a byte's value does not depend on when its pixel was taken. -/
theorem read_foldl_xformIteration {order : List (Nat × Nat)} (hn : order.Nodup) (s : State)
    (hx : ∀ xy ∈ order, xy.1 < s.width.toNat) (a : Nat) :
    (order.foldl xformIteration s).pix.read a =
      if pixelOf s.width.toNat a ∈ order then some (xformByte s a) else s.pix.read a := by
  induction order generalizing s with
  | nil => simp
  | cons xy order ih =>
    obtain ⟨x, y⟩ := xy
    obtain ⟨hnew, hn⟩ := List.nodup_cons.mp hn
    obtain ⟨hx0, hx⟩ := List.forall_mem_cons.mp hx
    have hw : (xformIteration s (x, y)).width = s.width := rfl
    rw [List.foldl_cons, ih hn (xformIteration s (x, y)) hx, hw]
    by_cases ho : pixelOf s.width.toNat a ∈ order
    · rw [if_pos ho, if_pos (List.mem_cons_of_mem _ ho),
        xformByte_xformIteration s hx0 fun h => hnew (h ▸ ho)]
    · rw [if_neg ho, read_xformIteration s y hx0]
      exact if_congr (by rw [List.mem_cons, or_iff_left ho]) rfl rfl

theorem wf_foldl_xformIteration (order : List (Nat × Nat)) {s : State} (h : Memory.wf s.pix) :
    Memory.wf (order.foldl xformIteration s).pix := by
  induction order generalizing s with
  | nil => exact h
  | cons xy order ih =>
    refine ih ?_
    rw [xformIteration_eq]
    exact Memory.wf_writePixel _ _ h

/-- The loop changes PIX only. -/
theorem foldl_xformIteration_frame (order : List (Nat × Nat)) (s : State) :
    order.foldl xformIteration s = { s with pix := (order.foldl xformIteration s).pix } := by
  induction order generalizing s with
  | nil => rfl
  | cons xy order ih =>
    rw [List.foldl_cons, ih]
    rfl

theorem mem_rowMajor {w h x y : Nat} : (x, y) ∈ rowMajor w h ↔ x < w ∧ y < h := by
  simp [rowMajor, and_comm]

/-- The loops take no pixel twice. -/
theorem nodup_rowMajor (w h : Nat) : (rowMajor w h).Nodup := by
  refine List.nodup_flatMap.mpr ⟨fun y _ => List.nodup_range.map fun x x' hxx => congrArg Prod.fst hxx, ?_⟩
  refine List.pairwise_lt_range.imp fun {y y'} hy p hp hp' => ?_
  obtain ⟨x, -, rfl⟩ := List.mem_map.mp hp
  obtain ⟨x', -, hxx⟩ := List.mem_map.mp hp'
  exact hy.ne' (congrArg Prod.snd hxx)

/-- The loops take a pixel for each byte of the buffer, and for no other (20_memory.md R31). -/
theorem pixelOf_mem_rowMajor {w : Nat} (hw : 0 < w) (h a : Nat) : pixelOf w a ∈ rowMajor w h ↔ a < 4 * w * h := by
  rw [pixelOf, mem_rowMajor, and_iff_right (Nat.mod_lt _ hw), Nat.div_lt_iff_lt_mul hw, mul_assoc, mul_comm w h]
  omega

/-- Any order that takes each pixel once leaves XFORM's state. -/
theorem foldl_xformIteration_eq_effectOf {s : State} {order : List (Nat × Nat)} (hw : 0 < s.width.toNat)
    (hm : Memory.wf s.pix) (ho : order.Perm (rowMajor s.width.toNat s.height.toNat)) :
    order.foldl xformIteration s = s.effectOf .xform := by
  have hpix : (order.foldl xformIteration s).pix = (s.effectOf .xform).pix := by
    refine Memory.ext_of_read _ _ (wf_foldl_xformIteration order hm) (Memory.wf_fillBelow _ _ _ hm) fun a => ?_
    have hx : ∀ xy ∈ order, xy.1 < s.width.toNat := fun _ hxy => (mem_rowMajor.mp (ho.mem_iff.mp hxy)).1
    rw [read_foldl_xformIteration (ho.nodup_iff.mpr (nodup_rowMajor _ _)) s hx]
    refine (if_congr ?_ rfl rfl).trans (Memory.read_fillBelow _ _ _ a).symm
    rw [ho.mem_iff, pixelOf_mem_rowMajor hw]
    rfl
  rw [foldl_xformIteration_frame, hpix]
  rfl

/-- Settles O38: the loop ends in XFORM's state. -/
theorem xformEqualsItsLoopInAnyOrder : Obligations.XformEqualsItsLoopInAnyOrder := by
  intro s order hs hwf ho
  rw [exec_xform_of_ready hs]
  obtain ⟨-, -, hw, -⟩ := hs
  rw [foldl_xformIteration_eq_effectOf hw hwf ho]
  rfl

end Sys2Proof.Machine
end

section
/-! PROOFS. The statements about register access (44_regaccess.md). What a WR and an RD of a named register do is said once,
by exec_wr_of_wellFormed and rdReadsTheNamedRegister; a word written out in numbers is one branch of the decoder on its fields. -/

namespace Sys2Proof.Machine

/-! ### Writing a register (44_regaccess.md R98) -/

/-- The well-formed WR terms, on the number of the register (30_encoding.md R54 to R56). -/
theorem wellFormed_wr_iff (r : Reg) (imm : Packed) :
    (Instr.wr r imm).wellFormed = true ↔
      (regNumber r).toNat ≤ 2 ∨ ((regNumber r).toNat ≤ 5 ∧ imm.toNat < 65536) := by
  rw [Instr.wellFormed, Bool.and_eq_true, Bool.or_eq_true, Bool.not_eq_true', ← Bool.not_eq_true, writable_iff, isDim_iff,
    decide_eq_true_iff]
  omega

theorem exec_wr_of_wellFormed {r : Reg} {imm : Packed} {s : State} (he : s.err = 0)
    (hw : (Instr.wr r imm).wellFormed = true) : exec (.wr r imm) s = .next (s.writeReg r imm) :=
  (unlessError_of_clear s _ he).trans (if_pos hw)

/-- Settles O15: the six terms are well formed, and the low 16 bits of IMM are its value modulo 2 ^ 16. -/
theorem wrWritesTheNamedRegister : Obligations.WrWritesTheNamedRegister := by
  intro s imm he
  have hcolour {r : Reg} (hr : (regNumber r).toNat ≤ 2) : exec (.wr r imm) s = .next (s.writeReg r imm) :=
    exec_wr_of_wellFormed he ((wellFormed_wr_iff r imm).mpr (.inl hr))
  refine ⟨hcolour (by decide), hcolour (by decide), hcolour (by decide), fun hi => ?_⟩
  have hdim {r : Reg} (hr : (regNumber r).toNat ≤ 5) : exec (.wr r imm) s = .next (s.writeReg r imm) :=
    exec_wr_of_wellFormed he ((wellFormed_wr_iff r imm).mpr (.inr ⟨hr, hi⟩))
  rw [BitVec.ofNat_toNat]
  exact ⟨hdim (by decide), hdim (by decide), hdim (by decide)⟩

/-! ### Reading a register (44_regaccess.md R99) -/

theorem exec_rd (r : Reg) (s : State) : exec (.rd r) s = .next { s with rsp := s.readReg r } := rfl

/-- Settles O17: every register fits into RSP, and STATUS is read by its two fields. -/
theorem rdReadsTheNamedRegister : Obligations.RdReadsTheNamedRegister := by
  intro s r
  refine ⟨_, exec_rd r s, rfl, ?_⟩
  cases r with
  | rgb | hsv | tint | width | height | row | alpha => exact BitVec.toNat_setWidth_of_le (by decide)
  | status => exact (BitVec.toNat_setWidth_of_le (by decide)).trans (statusWord_toNat s.err s.lutv)

/-- A register holds the whole of the immediate a well-formed WR gives it. -/
theorem State.readReg_writeReg_toNat (s : State) {r : Reg} {imm : Packed} (hw : (Instr.wr r imm).wellFormed = true) :
    ((s.writeReg r imm).readReg r).toNat = imm.toNat := by
  rw [wellFormed_wr_iff] at hw
  cases r with
  | rgb | hsv | tint => exact BitVec.toNat_setWidth_of_le (by decide)
  | width | height | row =>
    have hi : imm.toNat < 2 ^ 16 := hw.elim (fun h => absurd h (by decide)) And.right
    exact (BitVec.toNat_setWidth_of_le (by decide)).trans ((BitVec.toNat_setWidth 16 imm).trans (Nat.mod_eq_of_lt hi))
  | alpha | status => exact absurd hw (by simp [regNumber])

/-- Settles O19: the WR is followed by the RD of what it wrote. -/
theorem wrThenRdReturnsTheValue : Obligations.WrThenRdReturnsTheValue :=
  fun s r _ he hw => ⟨_, _, exec_wr_of_wellFormed he hw, exec_rd r _, s.readReg_writeReg_toNat hw, rfl⟩

/-! ### The words of the two commands (30_encoding.md R51, R54) -/

/-- A word written out in the numbers of its fields is format C of them. -/
theorem ofNat_eq_formatC {op reg imm : Nat} (hr : reg ≤ 15) (hi : imm < 2 ^ 24) :
    (BitVec.ofNat 32 (op * 0x10000000 + reg * 0x01000000 + imm) : Word) =
      formatC (BitVec.ofNat 4 op) (BitVec.ofNat 4 reg) (BitVec.ofNat 24 imm) := by
  apply BitVec.eq_of_toNat_eq
  rw [formatC_toNat, BitVec.toNat_ofNat, BitVec.toNat_ofNat, BitVec.toNat_ofNat, BitVec.toNat_ofNat]
  omega

theorem decode_wrWord {reg imm : Nat} (hr : reg ≤ 15) (hi : imm < 2 ^ 24) :
    decode (BitVec.ofNat 32 (0x10000000 + reg * 0x01000000 + imm)) =
      decodeWr (BitVec.ofNat 4 reg) (BitVec.ofNat 24 imm) :=
  (congrArg decode (ofNat_eq_formatC (op := 1) hr hi)).trans (decode_formatC_wr _ _)

theorem decode_rdWord {reg imm : Nat} (hr : reg ≤ 15) (hi : imm < 2 ^ 24) :
    decode (BitVec.ofNat 32 (0x20000000 + reg * 0x01000000 + imm)) =
      decodeRd (BitVec.ofNat 4 reg) (BitVec.ofNat 24 imm) :=
  (congrArg decode (ofNat_eq_formatC (op := 2) hr hi)).trans (decode_formatC_rd _ _)

/-- The numbers 0 to 7 name a register (30_encoding.md R54). -/
theorem exists_regNumber_toNat_eq {n : Nat} (hn : n ≤ 7) : ∃ r, (regNumber r).toNat = n := by
  cases h : regOfNumber (BitVec.ofNat 4 n) with
  | none =>
    rw [regOfNumber_eq_none_iff, BitVec.toNat_ofNat] at h
    omega
  | some r => exact ⟨r, by rw [regNumber_of_regOfNumber _ r h, BitVec.toNat_ofNat]; omega⟩

theorem ofNat_regNumber_toNat (r : Reg) : BitVec.ofNat 4 (regNumber r).toNat = regNumber r := by
  rw [BitVec.ofNat_toNat, BitVec.setWidth_eq]

/-! ### WR words (44_regaccess.md R98) -/

/-- The WR words that write. -/
theorem runCommand_wrWord_of_legal {s : State} {r : Reg} {imm : Nat} (hi : imm < 2 ^ 24) (he : s.err = 0)
    (hl : (regNumber r).toNat ≤ 2 ∨ ((regNumber r).toNat ≤ 5 ∧ imm < 65536)) :
    runCommand (BitVec.ofNat 32 (0x10000000 + (regNumber r).toNat * 0x01000000 + imm)) s =
      .next (s.writeReg r (BitVec.ofNat 24 imm)) := by
  have hw : (Instr.wr r (BitVec.ofNat 24 imm)).wellFormed = true := by
    rwa [wellFormed_wr_iff, BitVec.toNat_ofNat, Nat.mod_eq_of_lt hi]
  have hd := decode_wrWord (reg := (regNumber r).toNat) (by omega) hi
  rw [ofNat_regNumber_toNat, (decodeWr_regNumber_iff r _).mpr hw] at hd
  exact (runCommand_of_decode hd s).trans (exec_wr_of_wellFormed he hw)

/-- The WR words that do not decode. -/
theorem runCommand_wrWord_of_illegal {s : State} {reg imm : Nat} (hr : reg ≤ 15) (hi : imm < 2 ^ 24) (he : s.err = 0)
    (hl : ¬ (reg ≤ 2 ∨ (reg ≤ 5 ∧ imm < 65536))) :
    runCommand (BitVec.ofNat 32 (0x10000000 + reg * 0x01000000 + imm)) s = .next (s.setErr 1) := by
  obtain ⟨e, hd⟩ : ∃ e, decodeWr (BitVec.ofNat 4 reg) (BitVec.ofNat 24 imm) = .error e := by
    rw [decodeWr_error_iff, BitVec.toNat_ofNat, BitVec.toNat_ofNat]
    omega
  exact runCommand_illegal ((decode_wrWord hr hi).trans hd) he

theorem runCommand_wrWord_in_error {s : State} {reg imm : Nat} (hr : reg ≤ 15) (hi : imm < 2 ^ 24) (he : s.err ≠ 0) :
    runCommand (BitVec.ofNat 32 (0x10000000 + reg * 0x01000000 + imm)) s = .next s := by
  refine runCommand_in_error he fun r hd => ?_
  obtain ⟨_, -, hwr⟩ := decodeWr_ok ((decode_wrWord hr hi).symm.trans hd)
  cases hwr

/-- Settles O16: a legal REG is the number of a register, and the two words are REG 4 and REG 3. -/
theorem wrWordsWriteTheirRegister : Obligations.WrWordsWriteTheirRegister := by
  refine ⟨fun s reg imm hr hi => ⟨fun he hl => ?_, runCommand_wrWord_of_illegal hr hi, runCommand_wrWord_in_error hr hi⟩,
    fun s he => runCommand_wrWord_of_legal (r := .height) (imm := 1136) (by decide) he (by decide),
    fun s he => runCommand_wrWord_of_illegal (reg := 3) (imm := 65536) (by decide) (by decide) he (by decide)⟩
  obtain ⟨r, rfl⟩ : ∃ r, (regNumber r).toNat = reg := exists_regNumber_toNat_eq (by omega)
  rw [runCommand_wrWord_of_legal hi he hl]
  have hlow : (BitVec.ofNat 24 imm).setWidth 16 = BitVec.ofNat 16 imm := BitVec.setWidth_ofNat_of_le (by decide) imm
  cases r with
  | rgb | hsv | tint => rfl
  | width | height | row => rw [State.writeReg, hlow]; rfl
  | alpha | status => exact absurd hl (by simp [regNumber])

/-! ### RD words (44_regaccess.md R99) -/

theorem runCommand_rdWord (r : Reg) (s : State) :
    runCommand (BitVec.ofNat 32 (0x20000000 + (regNumber r).toNat * 0x01000000)) s = exec (.rd r) s := by
  have hd := decode_rdWord (reg := (regNumber r).toNat) (imm := 0) (by have := (regNumber r).isLt; omega) (by decide)
  rw [Nat.add_zero, ofNat_regNumber_toNat] at hd
  exact runCommand_of_decode (hd.trans (decodeRd_regNumber r)) s

/-- A word that does not decode raises ILLEGAL outside the error state and has no effect in it (30_encoding.md R59). -/
theorem runCommand_of_error_eq_ite {w : Word} {e : DecodeError} (h : decode w = .error e) (s : State) :
    runCommand w s = .next (if s.err = 0 then s.setErr 1 else s) :=
  (runCommand_of_error h s).trans (apply_ite Host.Outcome.next (s.err = 0) (s.setErr 1) s).symm

/-- Settles O18: REG 0 to 7 is the number of a register, the other words do not decode, and STATUS is REG 7. -/
theorem rdWordsReadTheirRegister : Obligations.RdWordsReadTheirRegister := by
  refine ⟨fun s reg hr => ?_, fun s reg imm hr hi hbad => ?_, fun s t he hl h => ?_⟩
  · obtain ⟨r, rfl⟩ := exists_regNumber_toNat_eq hr
    obtain ⟨t, ht, hframe, hrsp⟩ := rdReadsTheNamedRegister s r
    refine ⟨t, (runCommand_rdWord r s).trans ht, hframe, hrsp.trans ?_⟩
    cases r with
    | rgb | hsv | tint | width | height | row | alpha | status => rfl
  · obtain ⟨e, hd⟩ : ∃ e, decodeRd (BitVec.ofNat 4 reg) (BitVec.ofNat 24 imm) = .error e := by
      rw [decodeRd_error_iff, BitVec.toNat_ofNat, BitVec.toNat_ofNat]
      omega
    exact runCommand_of_error_eq_ite ((decode_rdWord hr hi).trans hd) s
  · obtain ⟨u, hu, -, hrsp⟩ := rdReadsTheNamedRegister s .status
    cases ((runCommand_rdWord .status s).trans hu).symm.trans h
    apply BitVec.eq_of_toNat_eq
    rw [hrsp, he, hl]
    rfl

end Sys2Proof.Machine
end

section
/-! PROOFS. The statements about the errors (60_exceptions.md): the error state and its one way out, what raising an error
writes, and the order of the tests. -/

namespace Sys2Proof.Machine

/-! ### The error state (60_exceptions.md R112) -/

/-- A step whose move is no reset leaves the error state as it is, but for RSP and the host's side: the moves behind the
oldest are not looked at. -/
theorem step_frozen_of_head {s t : State} (he : s.err ≠ 0) (hr : s.inbox.head? ≠ some .reset) (h : step s = .next t) :
    t.FrozenAs s := by
  rcases step_cases h with ⟨-, rfl⟩ | ⟨m, rest, hi, h⟩
  · exact State.FrozenAs.refl _
  · have hm : m ≠ .reset := by rintro rfl; exact hr (by rw [hi]; rfl)
    exact (runMove_frozen (s := { s with inbox := rest }) he hm h).trans rfl

/-- Settles O9: an RD runs as decoded, other words and other steps leave the error state frozen, and reset clears STATUS. -/
theorem errorStateHasNoReturnButReset : Obligations.ErrorStateHasNoReturnButReset :=
  ⟨fun s _ _ _ hd => runCommand_of_decode hd s, fun _ _ => runCommand_in_error,
    fun _ _ he hr h => State.err_congr (step_frozen_of_head he hr h).status,
    fun s rest hi => ⟨_, step_of_inbox s .reset rest hi, State.err_resetCore _, State.lutv_resetCore _, rfl⟩⟩

/-! ### Raising an error (60_exceptions.md R111) -/

/-- A command that changes ERR started outside the error state: in it, every command leaves STATUS (30_encoding.md R59). -/
theorem err_eq_zero_of_exec_err_ne {i : Instr} {s t : State} (h : exec i s = .next t) (hne : t.err ≠ s.err) :
    s.err = 0 := by
  by_contra he
  exact hne (State.err_congr (exec_frozen he h).status)

/-- Settles O13: the state with ERR set to the code, and no code over an earlier one. -/
theorem raiseErrorWritesOnlyErr : Obligations.RaiseErrorWritesOnlyErr := by
  refine ⟨fun e s => ⟨s.setErr e.code, rfl, rfl, State.lutv_setErr s e.code, ?_⟩, fun _ _ _ => err_eq_zero_of_exec_err_ne⟩
  rw [State.err_setErr]
  cases e with
  | illegal | dim | nolut | range | row => rfl

/-! ### The order of the tests (60_exceptions.md R110) -/

/-- In the error state every word answers a state with the same STATUS, the RD words too. -/
theorem runCommand_status_of_error (w : Word) {s : State} (he : s.err ≠ 0) :
    ∃ t : State, runCommand w s = .next t ∧ t.status = s.status := by
  obtain ⟨t, ht⟩ := runCommand_answers w s
  exact ⟨t, ht, (runCommand_frozen he ht).status⟩

/-- Settles O14: ILLEGAL is the decoder's, and the orders of ALPHA and XFORM are those of their refusals
(42_alpha.md R85, 43_xform.md R92). -/
theorem errorsAreRaisedInPriorityOrder : Obligations.ErrorsAreRaisedInPriorityOrder := by
  intro s
  obtain ⟨-, alphaDim, alphaRow, -⟩ := alphaWritesTheBandValue.1 s
  obtain ⟨-, xformDim, xformNolut, xformRange, -⟩ := xformTransformsEveryPixel s
  exact ⟨fun w => runCommand_status_of_error w, fun he =>
    ⟨fun _ _ hd => runCommand_illegal hd he, alphaDim he, alphaRow he, xformDim he, xformNolut he, xformRange he⟩⟩

end Sys2Proof.Machine
end

section
/-! PROOFS. The statement about waiting (70_reset_and_hazards.md R116): a step with no move pending changes nothing, and what one
step leaves alone every run leaves alone. -/

namespace Sys2Proof.Machine

/-- The core has no instruction memory: with no move of the host pending it waits (10_state.md R20; log entry 3). -/
theorem step_of_inbox_nil {s : State} (hi : s.inbox = []) : step s = .next s := by
  rw [step, serve, hi]

/-- A state that a step leaves as it is stays so for any number of steps. -/
theorem run_of_step_eq_self {s : State} (h : step s = .next s) (k : Nat) :
    Host.Core.run Sys2Proof.core k s = .next s := by
  induction k with
  | zero => rfl
  | succ k ih => exact (run_succ_of_step h).trans ih

/-- Settles O7: a state with no move pending is a fixed point of step, hence of every run. -/
theorem coreWaitsForTheHost : Obligations.CoreWaitsForTheHost :=
  fun _ hi => ⟨step_of_inbox_nil hi, run_of_step_eq_self (step_of_inbox_nil hi)⟩

end Sys2Proof.Machine
end
